-- ==== Sys2Proof/Word.lean ====
section
/-! DEFINITION. The word types of the machine: 00_scope.md R5 (the widths), 30_encoding.md R51 (the fields). -/

namespace Sys2Proof

/-- A byte: a V register, a timer, a memory cell, an immediate `kk` (R5, R11, R16, R17). -/
abbrev Byte := BitVec 8

/-- A 16-bit word: `I`, `PC`, a stack entry, an instruction word (R5, R13, R14, R15, R50). -/
abbrev Word := BitVec 16

/-- The 12-bit immediate `nnn` (R51). -/
abbrev Imm12 := BitVec 12

/-- A general register's index, 0 to 15 (R11). -/
abbrev Reg := Fin 16

/-- The row count `n` of a sprite, 0 to 15 (R53, R136). -/
abbrev Height := Fin 16

end Sys2Proof
end

