-- ==== Sys2Proof/Syntax.lean ====
section
/-! DEFINITION. The instructions: 30_encoding.md R55, one constructor per row of its table (the four SYSNOP rows of
opcode_table.json are one operation, R55). -/

namespace Sys2Proof

/-- An instruction with its operands (R53). Constructors stand in the order of R55's table. -/
inductive Instr where
  /-- `CLS` 00E0 (R135). -/
  | cls
  /-- `RET` 00EE (R80). -/
  | ret
  /-- `SYSNOP` 0nnn with `instr[11:8] != 0` (R57, R81). -/
  | sysnop (nnn : Imm12)
  /-- `JP` 1nnn (R82). -/
  | jp (nnn : Imm12)
  /-- `CALL` 2nnn (R83). -/
  | call (nnn : Imm12)
  /-- `SE_IMM` 3xkk (R84). -/
  | seImm (x : Reg) (kk : Byte)
  /-- `SNE_IMM` 4xkk (R85). -/
  | sneImm (x : Reg) (kk : Byte)
  /-- `SE_REG` 5xy0 (R86). -/
  | seReg (x y : Reg)
  /-- `LD_IMM` 6xkk (R100). -/
  | ldImm (x : Reg) (kk : Byte)
  /-- `ADD_IMM` 7xkk (R101). -/
  | addImm (x : Reg) (kk : Byte)
  /-- `MOV` 8xy0 (R102). -/
  | movReg (x y : Reg)
  /-- `OR` 8xy1 (R103). -/
  | orReg (x y : Reg)
  /-- `AND` 8xy2 (R104). -/
  | andReg (x y : Reg)
  /-- `XOR` 8xy3 (R105). -/
  | xorReg (x y : Reg)
  /-- `ADD` 8xy4 (R106). -/
  | addReg (x y : Reg)
  /-- `SUB` 8xy5 (R107). -/
  | subReg (x y : Reg)
  /-- `SHR` 8xy6 (R108). -/
  | shr (x y : Reg)
  /-- `SUBN` 8xy7 (R109). -/
  | subnReg (x y : Reg)
  /-- `SHL` 8xyE (R110). -/
  | shl (x y : Reg)
  /-- `SNE_REG` 9xy0 (R87). -/
  | sneReg (x y : Reg)
  /-- `LD_I` Annn (R120). -/
  | ldI (nnn : Imm12)
  /-- `JP_V0` Bnnn (R88). -/
  | jpV0 (nnn : Imm12)
  /-- `RND` Cxkk (R111). -/
  | rnd (x : Reg) (kk : Byte)
  /-- `DRW` Dxyn (R136). -/
  | drw (x y : Reg) (n : Height)
  /-- `SKP` Ex9E (R145). -/
  | skp (x : Reg)
  /-- `SKNP` ExA1 (R146). -/
  | sknp (x : Reg)
  /-- `LD_VX_DT` Fx07 (R147). -/
  | ldVxDt (x : Reg)
  /-- `LD_VX_KEY` Fx0A (R148). -/
  | ldVxKey (x : Reg)
  /-- `LD_DT_VX` Fx15 (R149). -/
  | ldDtVx (x : Reg)
  /-- `LD_ST_VX` Fx18 (R150). -/
  | ldStVx (x : Reg)
  /-- `ADD_I` Fx1E (R121). -/
  | addI (x : Reg)
  /-- `LD_F` Fx29 (R122). -/
  | ldF (x : Reg)
  /-- `BCD` Fx33 (R123). -/
  | bcd (x : Reg)
  /-- `STM` Fx55 (R124). -/
  | stm (x : Reg)
  /-- `LDM` Fx65 (R125). -/
  | ldm (x : Reg)
deriving DecidableEq, Repr

end Sys2Proof
end

