-- ==== Sys2Proof/WellFormed.lean ====
section
/-! DEFINITION. Which terms of `Instr` are instructions of the hardware. Operand types admit exactly the values R59 calls
legal, so one check is left: the family-0 no-op has `instr[11:8] != 0` (30_encoding.md R57). -/

namespace Sys2Proof

/-- R57, R59: every operand value of an instruction is legal; a SYSNOP word has a nonzero `instr[11:8]`. -/
def Instr.wellFormed : Instr → Bool
  | .sysnop nnn => nnn.extractLsb' 8 4 != 0#4
  | .cls | .ret => true
  | .jp _ | .call _ | .ldI _ | .jpV0 _ => true
  | .seImm _ _ | .sneImm _ _ | .ldImm _ _ | .addImm _ _ | .rnd _ _ => true
  | .seReg _ _ | .sneReg _ _ | .movReg _ _ | .orReg _ _ | .andReg _ _ | .xorReg _ _ => true
  | .addReg _ _ | .subReg _ _ | .shr _ _ | .subnReg _ _ | .shl _ _ => true
  | .drw _ _ _ => true
  | .skp _ | .sknp _ => true
  | .ldVxDt _ | .ldVxKey _ | .ldDtVx _ | .ldStVx _ | .addI _ | .ldF _ | .bcd _ | .stm _ | .ldm _ => true

end Sys2Proof
end

