-- ==== Sys2Proof/Decode.lean ====
section
/-! DEFINITION. Instruction words: the fields (30_encoding.md R51), the decoder (R54, total, an illegal word rejected by the
name of its set in R56), the encoder, and the opcode map as a table (R55). -/

namespace Sys2Proof

/-! ### The fields of an instruction word (R51) -/

/-- `instr[15:12]`, the family. -/
def fieldFamily (w : Word) : BitVec 4 := w.extractLsb' 12 4

/-- `x = instr[11:8]`. -/
def fieldX (w : Word) : Reg := (w.extractLsb' 8 4).toFin

/-- `y = instr[7:4]`. -/
def fieldY (w : Word) : Reg := (w.extractLsb' 4 4).toFin

/-- `n = instr[3:0]`. -/
def fieldN (w : Word) : BitVec 4 := w.extractLsb' 0 4

/-- `kk = instr[7:0]`. -/
def fieldKk (w : Word) : Byte := w.extractLsb' 0 8

/-- `nnn = instr[11:0]`. -/
def fieldNnn (w : Word) : Imm12 := w.extractLsb' 0 12

/-! ### Decoding -/

/-- Why bytes are no instruction: too few of them, or a word of one of the six illegal sets of R56. -/
inductive Reject where
  /-- Fewer than the two bytes of an instruction (R50). -/
  | truncated
  /-- `0x0000..0x00FF` except 0x00E0 and 0x00EE. -/
  | illegalFamily0
  /-- `5xy1..5xyF` (R58). -/
  | illegalFamily5
  /-- `8xyn` with `n` in 8, 9, A, B, C, D, F. -/
  | illegalFamily8
  /-- `9xy1..9xyF` (R58). -/
  | illegalFamily9
  /-- `Exkk` with `kk` not 9E or A1. -/
  | illegalFamilyE
  /-- `Fxkk` with `kk` not one of the nine of family F. -/
  | illegalFamilyF
deriving DecidableEq, Repr

/-- R54, family 0: the no-op space has `instr[11:8] != 0`; below it only 00E0 and 00EE are instructions. -/
def decodeFamily0 (w : Word) : Except Reject Instr :=
  if fieldX w ≠ 0 then .ok (.sysnop (fieldNnn w))
  else match fieldKk w with
    | 0xE0#8 => .ok .cls
    | 0xEE#8 => .ok .ret
    | _ => .error .illegalFamily0

/-- R54, family 8. -/
def decodeFamily8 (w : Word) : Except Reject Instr :=
  match fieldN w with
  | 0x0#4 => .ok (.movReg (fieldX w) (fieldY w))
  | 0x1#4 => .ok (.orReg (fieldX w) (fieldY w))
  | 0x2#4 => .ok (.andReg (fieldX w) (fieldY w))
  | 0x3#4 => .ok (.xorReg (fieldX w) (fieldY w))
  | 0x4#4 => .ok (.addReg (fieldX w) (fieldY w))
  | 0x5#4 => .ok (.subReg (fieldX w) (fieldY w))
  | 0x6#4 => .ok (.shr (fieldX w) (fieldY w))
  | 0x7#4 => .ok (.subnReg (fieldX w) (fieldY w))
  | 0xE#4 => .ok (.shl (fieldX w) (fieldY w))
  | _ => .error .illegalFamily8

/-- R54, family E. -/
def decodeFamilyE (w : Word) : Except Reject Instr :=
  match fieldKk w with
  | 0x9E#8 => .ok (.skp (fieldX w))
  | 0xA1#8 => .ok (.sknp (fieldX w))
  | _ => .error .illegalFamilyE

/-- R54, family F. -/
def decodeFamilyF (w : Word) : Except Reject Instr :=
  match fieldKk w with
  | 0x07#8 => .ok (.ldVxDt (fieldX w))
  | 0x0A#8 => .ok (.ldVxKey (fieldX w))
  | 0x15#8 => .ok (.ldDtVx (fieldX w))
  | 0x18#8 => .ok (.ldStVx (fieldX w))
  | 0x1E#8 => .ok (.addI (fieldX w))
  | 0x29#8 => .ok (.ldF (fieldX w))
  | 0x33#8 => .ok (.bcd (fieldX w))
  | 0x55#8 => .ok (.stm (fieldX w))
  | 0x65#8 => .ok (.ldm (fieldX w))
  | _ => .error .illegalFamilyF

/-- R54: the two-level dispatch on the family and then on the sub-opcode. -/
def decodeWord (w : Word) : Except Reject Instr :=
  match fieldFamily w with
  | 0x0#4 => decodeFamily0 w
  | 0x1#4 => .ok (.jp (fieldNnn w))
  | 0x2#4 => .ok (.call (fieldNnn w))
  | 0x3#4 => .ok (.seImm (fieldX w) (fieldKk w))
  | 0x4#4 => .ok (.sneImm (fieldX w) (fieldKk w))
  | 0x5#4 => if fieldN w = 0x0#4 then .ok (.seReg (fieldX w) (fieldY w)) else .error .illegalFamily5
  | 0x6#4 => .ok (.ldImm (fieldX w) (fieldKk w))
  | 0x7#4 => .ok (.addImm (fieldX w) (fieldKk w))
  | 0x8#4 => decodeFamily8 w
  | 0x9#4 => if fieldN w = 0x0#4 then .ok (.sneReg (fieldX w) (fieldY w)) else .error .illegalFamily9
  | 0xA#4 => .ok (.ldI (fieldNnn w))
  | 0xB#4 => .ok (.jpV0 (fieldNnn w))
  | 0xC#4 => .ok (.rnd (fieldX w) (fieldKk w))
  | 0xD#4 => .ok (.drw (fieldX w) (fieldY w) (fieldN w).toFin)
  | 0xE#4 => decodeFamilyE w
  | _ => decodeFamilyF w   -- family 0xF

/-- R33: the byte at the lower address is the high byte of the word. -/
def joinBytes (hi lo : Byte) : Word := hi ++ lo

/-- The high byte of a word, `instr[15:8]`, which stands at the lower address (R33). -/
def highByte (w : Word) : Byte := w.extractLsb' 8 8

/-- The low byte of a word, `instr[7:0]` (R33). -/
def lowByte (w : Word) : Byte := w.extractLsb' 0 8

/-- The decoder on bytes: the instruction at the front of the list, and the bytes after it. Every instruction has two bytes,
stored big-endian (R50). -/
def decode : List Byte → Except Reject (Instr × List Byte)
  | hi :: lo :: rest =>
    match decodeWord (joinBytes hi lo) with
    | .ok i => .ok (i, rest)
    | .error e => .error e
  | _ => .error .truncated

/-! ### Encoding (R52, R55) -/

/-- A register index as the four bits of its field. -/
def nibble (r : Fin 16) : BitVec 4 := BitVec.ofFin r

/-- Format `NNN`: family and a 12-bit immediate. -/
def wordNNN (family : BitVec 4) (nnn : Imm12) : Word := family ++ nnn

/-- Formats `XKK` and `XSS`: family, register `x`, and the low byte (an immediate or a sub-opcode). -/
def wordXKK (family : BitVec 4) (x : Reg) (kk : Byte) : Word := family ++ nibble x ++ kk

/-- Format `XYN`: family, registers `x` and `y`, and the low nibble (an operand or a sub-opcode). -/
def wordXYN (family : BitVec 4) (x y : Reg) (n : BitVec 4) : Word := family ++ nibble x ++ nibble y ++ n

/-- The word of an instruction, from the patterns of R55. -/
def encode : Instr → Word
  | .cls => 0x00E0#16
  | .ret => 0x00EE#16
  | .sysnop nnn => wordNNN 0x0#4 nnn
  | .jp nnn => wordNNN 0x1#4 nnn
  | .call nnn => wordNNN 0x2#4 nnn
  | .seImm x kk => wordXKK 0x3#4 x kk
  | .sneImm x kk => wordXKK 0x4#4 x kk
  | .seReg x y => wordXYN 0x5#4 x y 0x0#4
  | .ldImm x kk => wordXKK 0x6#4 x kk
  | .addImm x kk => wordXKK 0x7#4 x kk
  | .movReg x y => wordXYN 0x8#4 x y 0x0#4
  | .orReg x y => wordXYN 0x8#4 x y 0x1#4
  | .andReg x y => wordXYN 0x8#4 x y 0x2#4
  | .xorReg x y => wordXYN 0x8#4 x y 0x3#4
  | .addReg x y => wordXYN 0x8#4 x y 0x4#4
  | .subReg x y => wordXYN 0x8#4 x y 0x5#4
  | .shr x y => wordXYN 0x8#4 x y 0x6#4
  | .subnReg x y => wordXYN 0x8#4 x y 0x7#4
  | .shl x y => wordXYN 0x8#4 x y 0xE#4
  | .sneReg x y => wordXYN 0x9#4 x y 0x0#4
  | .ldI nnn => wordNNN 0xA#4 nnn
  | .jpV0 nnn => wordNNN 0xB#4 nnn
  | .rnd x kk => wordXKK 0xC#4 x kk
  | .drw x y n => wordXYN 0xD#4 x y (nibble n)
  | .skp x => wordXKK 0xE#4 x 0x9E#8
  | .sknp x => wordXKK 0xE#4 x 0xA1#8
  | .ldVxDt x => wordXKK 0xF#4 x 0x07#8
  | .ldVxKey x => wordXKK 0xF#4 x 0x0A#8
  | .ldDtVx x => wordXKK 0xF#4 x 0x15#8
  | .ldStVx x => wordXKK 0xF#4 x 0x18#8
  | .addI x => wordXKK 0xF#4 x 0x1E#8
  | .ldF x => wordXKK 0xF#4 x 0x29#8
  | .bcd x => wordXKK 0xF#4 x 0x33#8
  | .stm x => wordXKK 0xF#4 x 0x55#8
  | .ldm x => wordXKK 0xF#4 x 0x65#8

/-- An instruction's bytes in memory order: the high byte first (R33, R50). -/
def encodeBytes (i : Instr) : List Byte := [highByte (encode i), lowByte (encode i)]

/-! ### The opcode map as a table (R55) -/

/-- A row of R55: the label and the `match` and `mask` values. A word `w` selects the row when `w & mask = match`. -/
structure OpcodeRow where
  label : String
  pattern : Word
  mask : Word
deriving DecidableEq, Repr

/-- The rows of families 0 to 7; SYSNOP is four rows, as R55 spells its condition out. -/
def opcodeRowsLow : List OpcodeRow := [
  ⟨"CLS", 0x00E0#16, 0xFFFF#16⟩, ⟨"RET", 0x00EE#16, 0xFFFF#16⟩,
  ⟨"SYSNOP", 0x0800#16, 0xF800#16⟩, ⟨"SYSNOP", 0x0400#16, 0xFC00#16⟩,
  ⟨"SYSNOP", 0x0200#16, 0xFE00#16⟩, ⟨"SYSNOP", 0x0100#16, 0xFF00#16⟩,
  ⟨"JP", 0x1000#16, 0xF000#16⟩, ⟨"CALL", 0x2000#16, 0xF000#16⟩,
  ⟨"SE_IMM", 0x3000#16, 0xF000#16⟩, ⟨"SNE_IMM", 0x4000#16, 0xF000#16⟩, ⟨"SE_REG", 0x5000#16, 0xF00F#16⟩,
  ⟨"LD_IMM", 0x6000#16, 0xF000#16⟩, ⟨"ADD_IMM", 0x7000#16, 0xF000#16⟩]

/-- The rows of families 8 to D. -/
def opcodeRowsMiddle : List OpcodeRow := [
  ⟨"MOV", 0x8000#16, 0xF00F#16⟩, ⟨"OR", 0x8001#16, 0xF00F#16⟩, ⟨"AND", 0x8002#16, 0xF00F#16⟩, ⟨"XOR", 0x8003#16, 0xF00F#16⟩,
  ⟨"ADD", 0x8004#16, 0xF00F#16⟩, ⟨"SUB", 0x8005#16, 0xF00F#16⟩, ⟨"SHR", 0x8006#16, 0xF00F#16⟩, ⟨"SUBN", 0x8007#16, 0xF00F#16⟩,
  ⟨"SHL", 0x800E#16, 0xF00F#16⟩, ⟨"SNE_REG", 0x9000#16, 0xF00F#16⟩,
  ⟨"LD_I", 0xA000#16, 0xF000#16⟩, ⟨"JP_V0", 0xB000#16, 0xF000#16⟩, ⟨"RND", 0xC000#16, 0xF000#16⟩, ⟨"DRW", 0xD000#16, 0xF000#16⟩]

/-- The rows of families E and F. -/
def opcodeRowsHigh : List OpcodeRow := [
  ⟨"SKP", 0xE09E#16, 0xF0FF#16⟩, ⟨"SKNP", 0xE0A1#16, 0xF0FF#16⟩,
  ⟨"LD_VX_DT", 0xF007#16, 0xF0FF#16⟩, ⟨"LD_VX_KEY", 0xF00A#16, 0xF0FF#16⟩, ⟨"LD_DT_VX", 0xF015#16, 0xF0FF#16⟩,
  ⟨"LD_ST_VX", 0xF018#16, 0xF0FF#16⟩, ⟨"ADD_I", 0xF01E#16, 0xF0FF#16⟩, ⟨"LD_F", 0xF029#16, 0xF0FF#16⟩,
  ⟨"BCD", 0xF033#16, 0xF0FF#16⟩, ⟨"STM", 0xF055#16, 0xF0FF#16⟩, ⟨"LDM", 0xF065#16, 0xF0FF#16⟩]

/-- The whole opcode map of R55, 38 rows. -/
def opcodeRows : List OpcodeRow := opcodeRowsLow ++ opcodeRowsMiddle ++ opcodeRowsHigh

/-- A word selects a row when the bits under the mask are the row's (R55). -/
def OpcodeRow.selects (r : OpcodeRow) (w : Word) : Bool := w &&& r.mask == r.pattern

/-- The label of an instruction in R55 (R60). -/
def Instr.label : Instr → String
  | .cls => "CLS"
  | .ret => "RET"
  | .sysnop _ => "SYSNOP"
  | .jp _ => "JP"
  | .call _ => "CALL"
  | .seImm _ _ => "SE_IMM"
  | .sneImm _ _ => "SNE_IMM"
  | .seReg _ _ => "SE_REG"
  | .ldImm _ _ => "LD_IMM"
  | .addImm _ _ => "ADD_IMM"
  | .movReg _ _ => "MOV"
  | .orReg _ _ => "OR"
  | .andReg _ _ => "AND"
  | .xorReg _ _ => "XOR"
  | .addReg _ _ => "ADD"
  | .subReg _ _ => "SUB"
  | .shr _ _ => "SHR"
  | .subnReg _ _ => "SUBN"
  | .shl _ _ => "SHL"
  | .sneReg _ _ => "SNE_REG"
  | .ldI _ => "LD_I"
  | .jpV0 _ => "JP_V0"
  | .rnd _ _ => "RND"
  | .drw _ _ _ => "DRW"
  | .skp _ => "SKP"
  | .sknp _ => "SKNP"
  | .ldVxDt _ => "LD_VX_DT"
  | .ldVxKey _ => "LD_VX_KEY"
  | .ldDtVx _ => "LD_DT_VX"
  | .ldStVx _ => "LD_ST_VX"
  | .addI _ => "ADD_I"
  | .ldF _ => "LD_F"
  | .bcd _ => "BCD"
  | .stm _ => "STM"
  | .ldm _ => "LDM"

/-! ### The host's numbering of an opcode-table row's bits -/

/-- The instruction that the decoder reads from a table word: bit 0 of `w` is bit 0 of the 16-bit instruction word (the table
has one word a row), the bits from `nbits` up are 0, and the word's bytes are laid out as the hardware stores them (R33). -/
def decodeTableWord (nbits w : Nat) : Option Instr :=
  let word : Word := BitVec.ofNat 16 (w % 2 ^ nbits)
  if nbits ≤ 16 then
    match decode [highByte word, lowByte word] with
    | .ok (i, _) => some i
    | .error _ => none
  else none

end Sys2Proof
end

