-- ==== Sys2Proof/Config.lean ====
section
/-! DEFINITION. What an implementation fixes (the OPEN parameters of 00_scope.md R5) and the free values (the inputs of a
Step that the host chooses, 10_state.md R19 to R21). -/

namespace Sys2Proof

/-- `TIMER_TICK_MODE` (R21, 92_eei_decisions.md D2): who drives the tick enable of a Step. -/
inductive TickMode where
  /-- The host holds `tick_en = 1` on every Step. -/
  | perCycle
  /-- `tick_en` is a free input of each Step. -/
  | external
deriving DecidableEq, Repr

/-- The four OPEN parameters of R5 (92_eei_decisions.md, "Open parameters, in one place"). They are fixed at construction: no
instruction reads or writes them (R24). -/
structure Config where
  /-- `STACK_DEPTH`, the capacity of the call stack (R15). -/
  stackDepth : Nat
  /-- `MEM_FILL`, every byte of memory at reset that is not font (R26). -/
  memFill : Byte
  /-- `FONT_ROM`, the 80 glyph bytes at 0x050 (R190). -/
  fontRom : Vector Byte 80
  /-- `TIMER_TICK_MODE` (R21). -/
  tickMode : TickMode
deriving DecidableEq, Repr

/-- The inputs the host supplies to one Step (R65): the key snapshot `KEYS` (R19), the random byte `rnd` (R20) and the tick
enable `tick_en` (R21). -/
structure StepInput where
  keys : Vector Bool 16
  rnd : Byte
  tickEn : Bool
deriving DecidableEq, Repr, Inhabited

/-- The inputs of the Step whose draw has the given number, where the host has fixed none beforehand: a free value. It has no
body, so that nothing can be proved of the keys, of the random byte, or of the tick enable it holds (R19, R20, R21;
93_implementation_defined.md U5, U6, U7; log entry 6). -/
opaque Config.freeInput : Nat → StepInput

end Sys2Proof
end

