-- ==== Sys2Proof/Machine/Params.lean ====
section
/-! DEFINITION. The machine's fixed sizes (00_scope.md R5), the default values of its OPEN parameters, and the reset contents
of memory (10_state.md R26, 70_reset_and_hazards.md R190). -/

namespace Sys2Proof.Machine

/-- `MEM_SIZE`: addresses 0x000 to 0xFFF are valid (R5, R30). -/
def memSize : Nat := 4096

/-- `FONT_BASE` (R5). -/
def fontBase : Nat := 0x050

/-- The font is 16 glyphs of 5 bytes (R5). -/
def fontSize : Nat := 80

/-- `PROG_BASE`: where a program is loaded (R5, R191). -/
def progBase : Nat := 0x200

/-- `MAX_PROG` (R5, R191). -/
def maxProg : Nat := 3584

/-- The reset value of PC (R26; 90_conflicts.md C6; log entry 9). -/
def resetPC : Word := 0x200

/-- The default `FONT_ROM`: the table of R190, one line per glyph. PRESUMED: the spec has it from general knowledge
(92_eei_decisions.md D8; log entry 2). -/
def defaultFont : Vector Byte 80 := #v[
  0xF0, 0x90, 0x90, 0x90, 0xF0,
  0x20, 0x60, 0x20, 0x20, 0x70,
  0xF0, 0x10, 0xF0, 0x80, 0xF0,
  0xF0, 0x10, 0xF0, 0x10, 0xF0,
  0x90, 0x90, 0xF0, 0x10, 0x10,
  0xF0, 0x80, 0xF0, 0x10, 0xF0,
  0xF0, 0x80, 0xF0, 0x90, 0xF0,
  0xF0, 0x10, 0x20, 0x40, 0x40,
  0xF0, 0x90, 0xF0, 0x90, 0xF0,
  0xF0, 0x90, 0xF0, 0x10, 0xF0,
  0xF0, 0x90, 0xF0, 0x90, 0x90,
  0xE0, 0x90, 0xE0, 0x90, 0xE0,
  0xF0, 0x80, 0x80, 0x80, 0xF0,
  0xE0, 0x90, 0x90, 0x90, 0xE0,
  0xF0, 0x80, 0xF0, 0x80, 0xF0,
  0xF0, 0x80, 0xF0, 0x80, 0x80]

/-- The defaults of the four OPEN parameters (R5; 92_eei_decisions.md, "Open parameters, in one place"). DESIGN CHOICE of the
spec (log entries 1 to 5). -/
def defaultConfig : Config where
  stackDepth := 16
  memFill := 0x00
  fontRom := defaultFont
  tickMode := .perCycle

/-- The byte an address holds at reset, before Load: the font at 0x050 to 0x09F, `MEM_FILL` elsewhere (R26, R190). This is
what an address that `MEM` does not list reads as. -/
def resetByte (c : Config) (a : Nat) : Byte :=
  if fontBase ≤ a ∧ a < fontBase + fontSize then (c.fontRom[a - fontBase]?).getD c.memFill else c.memFill

end Sys2Proof.Machine
end

