-- ==== Sys2Proof/Machine/State.lean ====
section
/-! DEFINITION. The state of the machine (10_state.md R10), its faults (60_exceptions.md R161) and its reset (R26, R190). -/

namespace Sys2Proof.Machine

/-- `MEM` as the list of the bytes that differ from the reset contents, addresses strictly rising (`Memory.wf`). -/
abbrev Memory := List Host.Cell

/-- `DISP[cx][cy]`: 64 columns of 32 pixels, true = lit (R18). -/
abbrev Display := Vector (Vector Bool 32) 64

/-- The record of a fatal fault (R161): the cause's code, the word fetched (absent for code 1), the fetch address, and the
extra value recorded: `pc_fetch` for code 1, the word for 2, none for 3 and 4, the address for 5, the value of `V[x]` for 6. -/
structure FaultRecord where
  code : Nat
  instr : Option Word
  pcFetch : Word
  extra : Option Nat
deriving DecidableEq, Repr

/-- `status` (R22). -/
inductive Status where
  /-- The machine may take a Step. -/
  | running
  /-- A fatal fault has stopped the machine; only reset leaves this status (R22, R66). -/
  | faulted (record : FaultRecord)
deriving DecidableEq, Repr

/-- The logged event `UnknownFamily0(instr, pc_fetch)` (R168). -/
structure LogEvent where
  instr : Word
  pcFetch : Word
deriving DecidableEq, Repr

/-- The outputs of a Step that completes (R23): `display_changed` (R72) and `log_event` (R168). -/
structure StepOutput where
  displayChanged : Bool
  logEvent : Option LogEvent
deriving DecidableEq, Repr

/-- The outputs before a Step has produced any. -/
abbrev StepOutput.quiet : StepOutput := ⟨false, none⟩

/-- The state of the machine. `V` to `status` are the components of R10 under the spec's own names. `config` holds the OPEN
parameters of R5, which nothing writes. `pending`, `drawIndex` and `OUT` are the model's own: a Step of the fixed interface
takes only a state and answers only a state, so its inputs (R19 to R21) and its outputs (R23) stand here (log entries 6, 7). -/
structure State where
  /-- The parameters the machine was constructed with (R5, R24). -/
  config : Config
  /-- The general registers V[0] to V[15]; VF is V[15] (R11, R12). -/
  V : Vector Byte 16
  /-- The index register (R13). -/
  I : Word
  /-- The program counter (R14). -/
  PC : Word
  /-- The call stack, the last pushed value first (R15). -/
  S : List Word
  /-- The delay timer (R16). -/
  DT : Byte
  /-- The sound timer (R16). -/
  ST : Byte
  /-- The memory (R17, R30). -/
  MEM : Memory
  /-- The display (R18). -/
  DISP : Display
  /-- `Running` or `Faulted(record)` (R22). -/
  status : Status
  /-- The inputs the host has fixed for the coming Steps, oldest first (R19 to R21). -/
  pending : List StepInput
  /-- The number of the coming Step's draw, for the free inputs (`Config.freeInput`). -/
  drawIndex : Nat
  /-- The outputs of the last Step (R23). -/
  OUT : StepOutput
deriving DecidableEq, Repr

/-- Why a Step has no next state. Each of the six fatal faults of R161 carries its record's fields; the state after a fatal
fault is not defined (R171), so none is answered. -/
inductive Fault where
  /-- Code 1, raised by the fetch when `PC >= 4095` (R67, R162). Safe: the spec's own fault. -/
  | fetchOutOfBounds (pcFetch : Word)
  /-- Code 2, raised by the dispatch of an illegal word (R56, R163). Safe: the spec's own fault; for families 5 and 9 the spec
  chose it where the source is silent (R58). -/
  | unknownOpcode (instr pcFetch : Word)
  /-- Code 3, raised by RET on an empty stack (R80, R164). Safe: the spec's own fault. -/
  | stackUnderflow (instr pcFetch : Word)
  /-- Code 4, raised by CALL on a full stack (R83, R165). Safe: the spec chose it where the source is silent (D10). -/
  | stackOverflow (instr pcFetch : Word)
  /-- Code 5, raised by DRW, BCD, STM and LDM at the first effective address of 4096 or more (R31, R166). Safe: the spec chose
  it where the source is silent (D11). -/
  | memoryOutOfBounds (instr pcFetch : Word) (address : Nat)
  /-- Code 6, raised by SKP and SKNP when `V[x] > 15` (R145, R146, R167). Safe: the spec chose it where the source is silent
  (D12). -/
  | keyIndexOutOfRange (instr pcFetch : Word) (key : Byte)
  /-- No Step: the machine is already `Faulted(record)` (R66). Raised by `step` alone. Safe: the machine is stuck, as R66
  says. -/
  | noStep (record : FaultRecord)
deriving DecidableEq, Repr

/-- What the model does not do. -/
inductive Refusal where
  /-- An instruction that has no meaning yet; no instruction of this model is left so. Safe: nothing is proved of it. -/
  | notModelled (mnemonic : String)
  /-- A Load of more than 3584 bytes, rejected whole with an error to the host (R191). Raised by `boot` alone, never by a Step.
  Safe: the spec's own choice, and no state changes. -/
  | loadTooLong (length : Nat)
deriving DecidableEq, Repr

/-- Reset (R26, R190) of a machine constructed with the given parameters, before Load: memory lists nothing, so every address
holds its reset contents. -/
def State.resetWith (c : Config) : State where
  config := c
  V := Vector.replicate 16 0
  I := 0
  PC := resetPC
  S := []
  DT := 0
  ST := 0
  MEM := []
  DISP := Vector.replicate 64 (Vector.replicate 32 false)
  status := .running
  pending := []
  drawIndex := 0
  OUT := .quiet

/-- The machine right after reset, with the OPEN parameters at the spec's defaults (R5, R26, R190). -/
def State.reset : State := State.resetWith defaultConfig

end Sys2Proof.Machine
end

