-- ==== Sys2Proof/Machine/Ops.lean ====
section
/-! DEFINITION. The operations every meaning is written over: reads and writes of each state component, memory (20_memory.md
R31, R32), the call stack (10_state.md R15), the display (R18, R137), the Step's inputs (R19 to R21), and raising a fatal
fault (60_exceptions.md R160, R161, R171). There is no return from a fault (R172), so no operation for one. -/

namespace Sys2Proof.Machine

/-! ### Registers -/

/-- `V[i]` (R7, R11). -/
def State.reg (s : State) (r : Reg) : Byte := s.V[r.val]

/-- `V[i] <- v` (R7, R11). -/
def State.setReg (s : State) (r : Reg) (v : Byte) : State := { s with V := s.V.set r.val v r.isLt }

/-- `I <- v` (R7, R13). -/
def State.setI (s : State) (v : Word) : State := { s with I := v }

/-- `PC <- v` (R7, R14); no value is checked when it is written (R89). -/
def State.setPC (s : State) (v : Word) : State := { s with PC := v }

/-- `DT <- v` (R7, R16). -/
def State.setDT (s : State) (v : Byte) : State := { s with DT := v }

/-- `ST <- v` (R7, R16). -/
def State.setST (s : State) (v : Byte) : State := { s with ST := v }

/-- The call stack becomes the given sequence. -/
def State.setStack (s : State) (stack : List Word) : State := { s with S := stack }

/-- The display becomes the given one. -/
def State.setDisplay (s : State) (d : Display) : State := { s with DISP := d }

/-- The Step's outputs become the given ones (R23). -/
def State.setOutput (s : State) (o : StepOutput) : State := { s with OUT := o }

/-! ### Memory -/

/-- The byte listed at an address. -/
def Memory.entry : Memory → Nat → Option Byte
  | [], _ => none
  | (b, v) :: rest, a => if b = a then some v else Memory.entry rest a

/-- The byte at an address: what is listed, or the reset contents. -/
def Memory.read (c : Config) (m : Memory) (a : Nat) : Byte := (Memory.entry m a).getD (resetByte c a)

/-- The list without any entry at an address. -/
def Memory.erase : Memory → Nat → Memory
  | [], _ => []
  | (b, v) :: rest, a => if b = a then Memory.erase rest a else (b, v) :: Memory.erase rest a

/-- The list with an entry at an address, in its place by address. -/
def Memory.insert : Memory → Nat → Byte → Memory
  | [], a, x => [(a, x)]
  | (b, v) :: rest, a, x =>
    if a < b then (a, x) :: (b, v) :: rest
    else if a = b then (a, x) :: rest
    else (b, v) :: Memory.insert rest a x

/-- A write keeps the canonical form: the value an unlisted address reads as removes the entry. -/
def Memory.write (c : Config) (m : Memory) (a : Nat) (x : Byte) : Memory :=
  if x = resetByte c a then Memory.erase m a else Memory.insert m a x

/-- The canonical form: addresses strictly rising and valid, no entry equal to what an unlisted address reads as. -/
abbrev Memory.wf (c : Config) (m : Memory) : Prop :=
  m.Pairwise (fun p q => p.1 < q.1) ∧ ∀ e ∈ m, e.1 < memSize ∧ e.2 ≠ resetByte c e.1

/-- `MEM[a]`, unchecked. -/
def State.readByte (s : State) (a : Nat) : Byte := Memory.read s.config s.MEM a

/-- `MEM[a] <- x`, unchecked. -/
def State.writeByte (s : State) (a : Nat) (x : Byte) : State := { s with MEM := Memory.write s.config s.MEM a x }

/-- Bytes written at ascending addresses, unchecked (Load, R191). -/
def State.writeBytes (s : State) (a : Nat) : List Byte → State
  | [] => s
  | x :: xs => (s.writeByte a x).writeBytes (a + 1) xs

/-- `MemRead(a, 1)` (R31): an address of 4096 or more is answered as the error. -/
def memRead (s : State) (a : Nat) : Except Nat Byte :=
  if a < memSize then .ok (s.readByte a) else .error a

/-- `MemWrite(a, 1, x)` (R31): an address of 4096 or more is answered as the error. -/
def memWrite (s : State) (a : Nat) (x : Byte) : Except Nat State :=
  if a < memSize then .ok (s.writeByte a x) else .error a

/-- Bytes stored one at a time at ascending addresses (R34, R36); the first invalid address is the error (R166). -/
def storeBytes (s : State) (a : Nat) : List Byte → Except Nat State
  | [] => .ok s
  | x :: xs =>
    match memWrite s a x with
    | .error e => .error e
    | .ok t => storeBytes t (a + 1) xs

/-! ### The call stack -/

/-- `push(S, v)`; none on a full stack (R15, R83). -/
def push (s : State) (v : Word) : Option State :=
  if s.S.length < s.config.stackDepth then some (s.setStack (v :: s.S)) else none

/-- `pop(S)`: the last pushed value and the state without it; none on an empty stack (R15, R80). -/
def pop (s : State) : Option (Word × State) :=
  match s.S with
  | [] => none
  | v :: rest => some (v, s.setStack rest)

/-! ### The display -/

/-- `DISP[cx][cy]` of a display (R18). -/
def Display.lit (d : Display) (cx : Fin 64) (cy : Fin 32) : Bool := d[cx.val][cy.val]

/-- `DISP[cx][cy] <- b` of a display. -/
def Display.put (d : Display) (cx : Fin 64) (cy : Fin 32) (b : Bool) : Display :=
  d.set cx.val (d[cx.val].set cy.val b cy.isLt) cx.isLt

/-- Every pixel false (R135). -/
def Display.clear : Display := Vector.replicate 64 (Vector.replicate 32 false)

/-- At least one pixel differs (R72), comparing column by column. -/
def Display.differs (d e : Display) : Bool := d.toList.map Vector.toList != e.toList.map Vector.toList

/-- `DISP[cx][cy]`, which is also the host's Render read (R18, R193). -/
def State.pixel (s : State) (cx : Fin 64) (cy : Fin 32) : Bool := Display.lit s.DISP cx cy

/-! ### The inputs of a Step -/

/-- The inputs of this Step: what the host has fixed, or a free value (log entry 6). -/
def State.input (s : State) : StepInput :=
  match s.pending with
  | i :: _ => i
  | [] => Config.freeInput s.drawIndex

/-- `KEYS[k]` of this Step (R19). -/
def State.key (s : State) (k : Fin 16) : Bool := s.input.keys[k.val]

/-- `rnd` of this Step (R20). -/
def State.rnd (s : State) : Byte := s.input.rnd

/-- `tick_en` of this Step: held at 1 in `PerCycle` mode, the host's input in `External` mode (R21). -/
def State.tickEn (s : State) : Bool :=
  match s.config.tickMode with
  | .perCycle => true
  | .external => s.input.tickEn

/-- The host chooses the next Step's inputs, replacing what it chose before (R19, R193). -/
def State.offerInput (s : State) (i : StepInput) : State := { s with pending := i :: s.pending.tail }

/-! ### Raising a fatal fault -/

/-- The fetch address of the Step whose dispatch is running: PC holds `pc_fetch + 2` then (R14, R68). -/
def State.pcFetch (s : State) : Word := s.PC - 2

/-- `raise F(info)` from the dispatch phase: the Step ends with the fault, whose record names the word and `pc_fetch`, and
there is no next state (R160, R161, R171). -/
def raise (s : State) (instr : Word) (cause : Word → Word → Fault) : Host.Outcome State Fault Refusal :=
  .fault (cause instr s.pcFetch)

/-- The record of R161, each cause with the extra value its row of the table names. A Step on a faulted machine raises nothing
new and keeps the record it has (R66). -/
def Fault.record : Fault → FaultRecord
  | .fetchOutOfBounds pc => ⟨1, none, pc, some pc.toNat⟩
  | .unknownOpcode w pc => ⟨2, some w, pc, some w.toNat⟩
  | .stackUnderflow w pc => ⟨3, some w, pc, none⟩
  | .stackOverflow w pc => ⟨4, some w, pc, none⟩
  | .memoryOutOfBounds w pc a => ⟨5, some w, pc, some a⟩
  | .keyIndexOutOfRange w pc k => ⟨6, some w, pc, some k.toNat⟩
  | .noStep r => r

/-- `status <- Faulted(record)` (R22, R160): the status a fatal fault gives the machine. Of a state made so only the status
means anything, for R171 leaves every other component undefined (but for `FetchOutOfBounds`, which changes none). -/
def State.enterFaulted (s : State) (f : Fault) : State := { s with status := .faulted f.record }

end Sys2Proof.Machine
end

