-- ==== Sys2Proof/Machine/Flags.lean ====
section
/-! DEFINITION. Every flag computation of the machine, each as the table of 10_state.md R12 gives it, and the write of the
flag register VF. Flags are computed from the old operands as natural numbers (00_scope.md R8, 42_alu.md R112, R113). -/

namespace Sys2Proof.Machine

/-- VF is general register 0xF (R12). -/
def regVF : Reg := 15

/-- A flag's value in VF: 1 or 0. -/
def flagByte (b : Bool) : Byte := if b then 1 else 0

/-- 8xy4: the carry, 1 if the sum exceeds 255 (R106). -/
def carryOfAdd (a b : Byte) : Bool := decide (255 < a.toNat + b.toNat)

/-- 8xy5 and 8xy7: 1 if no borrow occurs, `a >= b` (R107, R109). -/
def noBorrow (a b : Byte) : Bool := decide (b.toNat ≤ a.toNat)

/-- 8xy6: bit 0 of the old value (R108). -/
def shiftedOutRight (v : Byte) : Bool := v.getLsbD 0

/-- 8xyE: bit 7 of the old value (R110). -/
def shiftedOutLeft (v : Byte) : Bool := v.getLsbD 7

/-- Fx1E: the carry out of 16 bits (R121). -/
def carryOfIndex (i : Word) (v : Byte) : Bool := decide (0xFFFF < i.toNat + v.toNat)

/-- `VF <- b`, the last write of a flag-writing instruction (R12, R113). -/
def State.setVF (s : State) (b : Bool) : State := s.setReg regVF (flagByte b)

end Sys2Proof.Machine
end

