-- ==== Sys2Proof/Machine/Operands.lean ====
section
/-! DEFINITION. The operand forms (30_encoding.md R53) and the values an instruction computes from its operands: unsigned
arithmetic (42_alu.md R112), addresses (43_index_memory.md R126), digits (R123), and key codes (45_keys_timers.md). -/

namespace Sys2Proof.Machine

/-- `nnn` as a 16-bit value, its upper four bits zero (R53). -/
def immTarget (nnn : Imm12) : Word := nnn.setWidth 16

/-- `nnn + V[0]`, not masked to 12 bits (R88). -/
def offsetTarget (nnn : Imm12) (v0 : Byte) : Word := BitVec.ofNat 16 (nnn.toNat + v0.toNat)

/-- The sum modulo 256 (R101, R106, R112). -/
def addByte (a b : Byte) : Byte := a + b

/-- The difference modulo 256 (R107, R109, R112). -/
def subByte (a b : Byte) : Byte := a - b

/-- `v >> 1`: bit 7 becomes 0 (R108). -/
def shiftRight (v : Byte) : Byte := v >>> 1

/-- `(v << 1) mod 256`: bit 0 becomes 0 (R110). -/
def shiftLeft (v : Byte) : Byte := v <<< 1

/-- `(I + V[x]) mod 65536` (R121). -/
def addIndex (i : Word) (v : Byte) : Word := BitVec.ofNat 16 (i.toNat + v.toNat)

/-- `V[x] * 5 + 0x50`, the whole register, not masked (R122; 92_eei_decisions.md D31). -/
def glyphAddress (v : Byte) : Word := BitVec.ofNat 16 (v.toNat * 5 + fontBase)

/-- The effective address `I + i`, a natural number that never wraps (R32, R126). -/
def effectiveAddress (s : State) (i : Nat) : Nat := s.I.toNat + i

/-- The hundreds, tens and ones digits, in the order they are stored (R34, R123). -/
def bcdDigits (v : Byte) : List Byte :=
  [BitVec.ofNat 8 (v.toNat / 100), BitVec.ofNat 8 (v.toNat / 10 % 10), BitVec.ofNat 8 (v.toNat % 10)]

/-- `V[0]` to `V[x]`, in ascending order (R124). -/
def regsUpTo (s : State) (x : Reg) : List Byte := s.V.toList.take (x.val + 1)

/-- `V[i] <- MemRead(I + i, 1)` for `count` values of `i` from `i` upward (R125); the first invalid address is the error
(R166). -/
def loadRegs : Nat → Nat → State → Except Nat State
  | 0, _, s => .ok s
  | count + 1, i, s =>
    match memRead s (effectiveAddress s i) with
    | .error e => .error e
    | .ok b => loadRegs count (i + 1) (s.setReg (Fin.ofNat 16 i) b)

/-- The starting column `V[x] mod 64` (R137). -/
def startColumn (v : Byte) : Nat := v.toNat % 64

/-- The starting row `V[y] mod 32` (R137). -/
def startRow (v : Byte) : Nat := v.toNat % 32

/-- Bit `7 - j` of a sprite byte: its pixel in column `j`, bit 7 the leftmost (R34, R137). -/
def spriteBit (b : Byte) (j : Nat) : Bool := b.getLsbD (7 - j)

/-- The key a register names; none when the value exceeds 15 (R145, R146). -/
def keyIndex (v : Byte) : Option (Fin 16) := if h : v.toNat < 16 then some ⟨v.toNat, h⟩ else none

/-- The smallest pressed key, scanning 0 to 15 (R148). -/
def lowestKey (s : State) : Option Nat := s.input.keys.toList.findIdx? (fun pressed => pressed)

/-- A skip adds 2 to the advanced PC when the condition holds (R84, R89). -/
def skipIf (condition : Bool) (s : State) : State := if condition then s.setPC (s.PC + 2) else s

/-- The outcome of an instruction that accesses memory: an invalid address raises `MemoryOutOfBounds` (R31, R166). -/
def orMemoryFault (s : State) (instr : Word) (result : Except Nat State) : Host.Outcome State Fault Refusal :=
  match result with
  | .ok t => .next t
  | .error a => raise s instr (fun w pc => .memoryOutOfBounds w pc a)

end Sys2Proof.Machine
end

