-- ==== Sys2Proof/Machine/Cycle.lean ====
section
/-! DEFINITION. The phases of a Step around the dispatch (40_step_cycle.md R67 to R73): the fetch, the advance, the tick, an
illegal word, the outputs, and storing a word where the next fetch reads it. -/

namespace Sys2Proof.Machine

/-- Phase 1 (R67): the big-endian word at PC; none when `PC + 1 >= 4096`, a natural-number sum. -/
def fetch (s : State) : Option Word :=
  if s.PC.toNat + 1 < memSize then some (joinBytes (s.readByte s.PC.toNat) (s.readByte (s.PC.toNat + 1))) else none

/-- The fault of a fetch out of bounds (R67, R162). -/
def fetchFault (s : State) : Host.Outcome State Fault Refusal := .fault (.fetchOutOfBounds s.PC)

/-- Phase 2 (R68). -/
def State.advance (s : State) : State := s.setPC (s.PC + 2)

/-- A timer that is not zero is decremented (R69). -/
def tickTimer (v : Byte) : Byte := if v ≠ 0 then v - 1 else v

/-- Phase 3 (R69): both timers, independently, when `tick_en` is 1. -/
def State.tick (s : State) : State :=
  if s.tickEn then (s.setDT (tickTimer s.DT)).setST (tickTimer s.ST) else s

/-- The state in which the fetched word is dispatched: PC advanced, then the timers ticked, no output given yet (R73). -/
def State.beginStep (s : State) : State := (s.advance.tick).setOutput .quiet

/-- Phase 4 on an illegal word (R70, R163), in the state the dispatch runs in. -/
def illegalWord (w : Word) (s : State) : Host.Outcome State Fault Refusal := raise s w .unknownOpcode

/-- The end of a Step that completed: `display_changed` says whether any pixel differs (R72), and this Step's inputs are used
up (R19, R20, R21). -/
def State.endStep (before after : State) : State :=
  { after with
    OUT := { after.OUT with displayChanged := Display.differs before.DISP after.DISP }
    pending := after.pending.tail
    drawIndex := after.drawIndex + 1 }

/-- The outcome of a Step from the outcome of its dispatch (R71). -/
def finishStep (before : State) : Host.Outcome State Fault Refusal → Host.Outcome State Fault Refusal
  | .next after => .next (before.endStep after)
  | .fault f => .fault f
  | .refused r => .refused r

/-- A word stored, high byte first, where the next Step fetches (R33, R67); a PC at which nothing can be fetched has no such
place. -/
def State.storeFetchWord (s : State) (w : Word) : State :=
  if s.PC.toNat + 1 < memSize then s.writeBytes s.PC.toNat [highByte w, lowByte w] else s

end Sys2Proof.Machine
end

