-- ==== Sys2Proof/Machine/Alu.lean ====
section
/-! DEFINITION. Register load, arithmetic, logic, shift and random (42_alu.md). Operands are read first, the result is written,
and VF is written last (R113), so with `x = 0xF` the flag replaces the result. -/

namespace Sys2Proof.Machine

/-- `LD_IMM` 6xkk (R100). -/
def execLdImm (x : Reg) (kk : Byte) (s : State) : Host.Outcome State Fault Refusal :=
  .next (s.setReg x kk)

/-- `ADD_IMM` 7xkk (R101): VF is not written. -/
def execAddImm (x : Reg) (kk : Byte) (s : State) : Host.Outcome State Fault Refusal :=
  .next (s.setReg x (addByte (s.reg x) kk))

/-- `MOV` 8xy0 (R102). -/
def execMovReg (x y : Reg) (s : State) : Host.Outcome State Fault Refusal :=
  .next (s.setReg x (s.reg y))

/-- `OR` 8xy1 (R103): VF is not written. -/
def execOrReg (x y : Reg) (s : State) : Host.Outcome State Fault Refusal :=
  .next (s.setReg x (s.reg x ||| s.reg y))

/-- `AND` 8xy2 (R104): VF is not written. -/
def execAndReg (x y : Reg) (s : State) : Host.Outcome State Fault Refusal :=
  .next (s.setReg x (s.reg x &&& s.reg y))

/-- `XOR` 8xy3 (R105): VF is not written. -/
def execXorReg (x y : Reg) (s : State) : Host.Outcome State Fault Refusal :=
  .next (s.setReg x (s.reg x ^^^ s.reg y))

/-- `ADD` 8xy4 (R106). -/
def execAddReg (x y : Reg) (s : State) : Host.Outcome State Fault Refusal :=
  .next ((s.setReg x (addByte (s.reg x) (s.reg y))).setVF (carryOfAdd (s.reg x) (s.reg y)))

/-- `SUB` 8xy5 (R107). -/
def execSubReg (x y : Reg) (s : State) : Host.Outcome State Fault Refusal :=
  .next ((s.setReg x (subByte (s.reg x) (s.reg y))).setVF (noBorrow (s.reg x) (s.reg y)))

/-- `SHR` 8xy6 (R108): V[y], then V[x], then VF. -/
def execShr (x y : Reg) (s : State) : Host.Outcome State Fault Refusal :=
  .next (((s.setReg y (shiftRight (s.reg y))).setReg x (shiftRight (s.reg y))).setVF (shiftedOutRight (s.reg y)))

/-- `SUBN` 8xy7 (R109). -/
def execSubnReg (x y : Reg) (s : State) : Host.Outcome State Fault Refusal :=
  .next ((s.setReg x (subByte (s.reg y) (s.reg x))).setVF (noBorrow (s.reg y) (s.reg x)))

/-- `SHL` 8xyE (R110): V[y], then V[x], then VF. -/
def execShl (x y : Reg) (s : State) : Host.Outcome State Fault Refusal :=
  .next (((s.setReg y (shiftLeft (s.reg y))).setReg x (shiftLeft (s.reg y))).setVF (shiftedOutLeft (s.reg y)))

/-- `RND` Cxkk (R111). -/
def execRnd (x : Reg) (kk : Byte) (s : State) : Host.Outcome State Fault Refusal :=
  .next (s.setReg x (s.rnd &&& kk))

end Sys2Proof.Machine
end

