-- ==== Sys2Proof/Machine/Draw.lean ====
section
/-! DEFINITION. Display instructions and the sprite draw collision detector (44_display.md). -/

namespace Sys2Proof.Machine

/-- The display under a draw, and whether a lit pixel has been turned off (the collision). -/
structure Drawing where
  disp : Display
  hit : Bool
deriving DecidableEq, Repr

/-- A sprite bit of 1 meets a pixel: a lit pixel is turned off and collides, an unlit one is turned on (R136). -/
def drawPixel (g : Drawing) (cx : Fin 64) (cy : Fin 32) : Drawing :=
  if Display.lit g.disp cx cy then ⟨Display.put g.disp cx cy false, true⟩ else ⟨Display.put g.disp cx cy true, g.hit⟩

/-- `count` columns of a row from column `j` rightward; the row stops at the right edge (R136). -/
def drawColumns (b : Byte) (x0 : Nat) (cy : Fin 32) : Nat → Nat → Drawing → Drawing
  | 0, _, g => g
  | count + 1, j, g =>
    if h : x0 + j < 64 then
      drawColumns b x0 cy count (j + 1) (if spriteBit b j then drawPixel g ⟨x0 + j, h⟩ cy else g)
    else g

/-- `count` rows from row `i` downward: a row's byte is read before the test for the bottom edge, which stops the instruction
(R136; 92_eei_decisions.md D17). The first invalid address is the error (R166). -/
def drawRows (s : State) (x0 y0 : Nat) : Nat → Nat → Drawing → Except Nat Drawing
  | 0, _, g => .ok g
  | count + 1, i, g =>
    match memRead s (effectiveAddress s i) with
    | .error e => .error e
    | .ok b =>
      if h : y0 + i < 32 then
        drawRows s x0 y0 count (i + 1) (drawColumns b x0 ⟨y0 + i, h⟩ 8 0 g)
      else .ok g

/-- The state after a draw: the display, and the collision in VF (R136). -/
def State.withDrawing (s : State) (g : Drawing) : State := (s.setDisplay g.disp).setVF g.hit

/-- `CLS` 00E0 (R135). -/
def execCls (s : State) : Host.Outcome State Fault Refusal :=
  .next (s.setDisplay Display.clear)

/-- `DRW` Dxyn (R136): the coordinates are read before VF is cleared (92_eei_decisions.md D16). -/
def execDrw (x y : Reg) (n : Height) (s : State) : Host.Outcome State Fault Refusal :=
  orMemoryFault s (encode (.drw x y n))
    (match drawRows s (startColumn (s.reg x)) (startRow (s.reg y)) n.val 0 ⟨s.DISP, false⟩ with
      | .ok g => .ok (s.withDrawing g)
      | .error a => .error a)

end Sys2Proof.Machine
end

