-- ==== Sys2Proof/Machine/Flow.lean ====
section
/-! DEFINITION. Control transfer (41_flow.md): the jumps, call and return, the skips on registers, and the family-0 logged
no-op. A meaning runs in the dispatch phase: PC already holds `pc_fetch + 2` and the timers are ticked (R68, R69). -/

namespace Sys2Proof.Machine

/-- `RET` 00EE (R80). -/
def execRet (s : State) : Host.Outcome State Fault Refusal :=
  match pop s with
  | none => raise s (encode .ret) .stackUnderflow
  | some (v, t) => .next (t.setPC v)

/-- `SYSNOP` 0nnn (R81): the dispatch emits the log event and changes nothing else. -/
def execSysnop (nnn : Imm12) (s : State) : Host.Outcome State Fault Refusal :=
  .next (s.setOutput { s.OUT with logEvent := some ⟨encode (.sysnop nnn), s.pcFetch⟩ })

/-- `JP` 1nnn (R82). -/
def execJp (nnn : Imm12) (s : State) : Host.Outcome State Fault Refusal :=
  .next (s.setPC (immTarget nnn))

/-- `CALL` 2nnn (R83): the pushed value is the advanced PC. -/
def execCall (nnn : Imm12) (s : State) : Host.Outcome State Fault Refusal :=
  match push s s.PC with
  | none => raise s (encode (.call nnn)) .stackOverflow
  | some t => .next (t.setPC (immTarget nnn))

/-- `SE_IMM` 3xkk (R84). -/
def execSeImm (x : Reg) (kk : Byte) (s : State) : Host.Outcome State Fault Refusal :=
  .next (skipIf (s.reg x == kk) s)

/-- `SNE_IMM` 4xkk (R85). -/
def execSneImm (x : Reg) (kk : Byte) (s : State) : Host.Outcome State Fault Refusal :=
  .next (skipIf (s.reg x != kk) s)

/-- `SE_REG` 5xy0 (R86). -/
def execSeReg (x y : Reg) (s : State) : Host.Outcome State Fault Refusal :=
  .next (skipIf (s.reg x == s.reg y) s)

/-- `SNE_REG` 9xy0 (R87). -/
def execSneReg (x y : Reg) (s : State) : Host.Outcome State Fault Refusal :=
  .next (skipIf (s.reg x != s.reg y) s)

/-- `JP_V0` Bnnn (R88): the offset register is always V0. -/
def execJpV0 (nnn : Imm12) (s : State) : Host.Outcome State Fault Refusal :=
  .next (s.setPC (offsetTarget nnn (s.reg 0)))

end Sys2Proof.Machine
end

