-- ==== Sys2Proof/Machine/Index.lean ====
section
/-! DEFINITION. Index register and memory instructions (43_index_memory.md). No memory access changes I (R126). -/

namespace Sys2Proof.Machine

/-- `LD_I` Annn (R120). -/
def execLdI (nnn : Imm12) (s : State) : Host.Outcome State Fault Refusal :=
  .next (s.setI (immTarget nnn))

/-- `ADD_I` Fx1E (R121): VF is written last, from the old operands. -/
def execAddI (x : Reg) (s : State) : Host.Outcome State Fault Refusal :=
  .next ((s.setI (addIndex s.I (s.reg x))).setVF (carryOfIndex s.I (s.reg x)))

/-- `LD_F` Fx29 (R122). -/
def execLdF (x : Reg) (s : State) : Host.Outcome State Fault Refusal :=
  .next (s.setI (glyphAddress (s.reg x)))

/-- `BCD` Fx33 (R123). -/
def execBcd (x : Reg) (s : State) : Host.Outcome State Fault Refusal :=
  orMemoryFault s (encode (.bcd x)) (storeBytes s (effectiveAddress s 0) (bcdDigits (s.reg x)))

/-- `STM` Fx55 (R124). -/
def execStm (x : Reg) (s : State) : Host.Outcome State Fault Refusal :=
  orMemoryFault s (encode (.stm x)) (storeBytes s (effectiveAddress s 0) (regsUpTo s x))

/-- `LDM` Fx65 (R125). -/
def execLdm (x : Reg) (s : State) : Host.Outcome State Fault Refusal :=
  orMemoryFault s (encode (.ldm x)) (loadRegs (x.val + 1) 0 s)

end Sys2Proof.Machine
end

