-- ==== Sys2Proof/Machine/Keys.lean ====
section
/-! DEFINITION. Key and timer instructions (45_keys_timers.md). -/

namespace Sys2Proof.Machine

/-- `SKP` Ex9E (R145). -/
def execSkp (x : Reg) (s : State) : Host.Outcome State Fault Refusal :=
  match keyIndex (s.reg x) with
  | none => raise s (encode (.skp x)) (fun w pc => .keyIndexOutOfRange w pc (s.reg x))
  | some k => .next (skipIf (s.key k) s)

/-- `SKNP` ExA1 (R146). -/
def execSknp (x : Reg) (s : State) : Host.Outcome State Fault Refusal :=
  match keyIndex (s.reg x) with
  | none => raise s (encode (.sknp x)) (fun w pc => .keyIndexOutOfRange w pc (s.reg x))
  | some k => .next (skipIf (!s.key k) s)

/-- `LD_VX_DT` Fx07 (R147). -/
def execLdVxDt (x : Reg) (s : State) : Host.Outcome State Fault Refusal :=
  .next (s.setReg x s.DT)

/-- Fx0A's effect (R148): the lowest pressed key to V[x], or PC back to this instruction. -/
def keyWait (x : Reg) (s : State) : State :=
  match lowestKey s with
  | some k => s.setReg x (BitVec.ofNat 8 k)
  | none => s.setPC (s.PC - 2)

/-- `LD_VX_KEY` Fx0A (R148). -/
def execLdVxKey (x : Reg) (s : State) : Host.Outcome State Fault Refusal :=
  .next (keyWait x s)

/-- `LD_DT_VX` Fx15 (R149). -/
def execLdDtVx (x : Reg) (s : State) : Host.Outcome State Fault Refusal :=
  .next (s.setDT (s.reg x))

/-- `LD_ST_VX` Fx18 (R150). -/
def execLdStVx (x : Reg) (s : State) : Host.Outcome State Fault Refusal :=
  .next (s.setST (s.reg x))

end Sys2Proof.Machine
end

