-- ==== Sys2Proof/Machine/Step.lean ====
section
/-! DEFINITION. The Step (40_step_cycle.md R65, R73). -/

namespace Sys2Proof.Machine

/-- One Step (R73): fetch, advance, tick, dispatch. A faulted machine has no Step (R66). -/
def step (s : State) : Host.Outcome State Fault Refusal :=
  match s.status with
  | .faulted record => .fault (.noStep record)
  | .running =>
    match fetch s with
    | none => fetchFault s
    | some w =>
      match decodeWord w with
      | .error _ => illegalWord w s.beginStep
      | .ok i => finishStep s (exec i s.beginStep)

/-- The state with a table word stored where its next Step fetches: it stands for the Load of a program from outside (log
entry 19). Bits of `w` from `nbits` up are 0; the instruction is one 16-bit word, its bit 0 the least significant. -/
def State.withFetchWord (s : State) (nbits w : Nat) : State :=
  s.storeFetchWord (BitVec.ofNat 16 (w % 2 ^ nbits))

end Sys2Proof.Machine
end

