-- ==== Sys2Proof/Machine/Boot.lean ====
section
/-! DEFINITION. The host's operations outside a Step (70_reset_and_hazards.md R190 to R193): reset, Load, and what may be
observed of the sound timer. The Input write is `State.offerInput` and the Render read `State.pixel`, in Ops.lean. -/

namespace Sys2Proof.Machine

/-- Reset, which may be applied to any state at any time with the same effect (R190; the spec's own decision D1, log entry 30):
every component of R10 is at its reset value. The parameters stay (R24), and so do the host's inputs, which are not the machine's
and have no reset value (R26). -/
def State.reapplyReset (s : State) : State :=
  { State.resetWith s.config with pending := s.pending, drawIndex := s.drawIndex }

/-- Reset and then Load (R190, R191): the program's bytes at 0x200 upward. A program of more than 3584 bytes is rejected whole
and no state is answered. Load is offered here only, right after reset (R191; 93_implementation_defined.md U17). -/
def boot (c : Config) (program : List Byte) : Host.Outcome State Fault Refusal :=
  if program.length ≤ maxProg then .next ((State.resetWith c).writeBytes progBase program)
  else .refused (.loadTooLong program.length)

/-- The derived observation `sound_active = (ST > 0)`, on which nothing depends (R16; 92_eei_decisions.md D30). -/
def State.soundActive (s : State) : Bool := decide (0 < s.ST.toNat)

end Sys2Proof.Machine
end

