-- ==== Sys2Proof/Safety.lean ====
section
/-! DEFINITION. The terms claims are stated in: the parts of the state and what a change leaves alone, the invariant of a
machine that has not faulted, the inputs of the coming Steps, and runs without a fault. -/

namespace Sys2Proof.Machine

/-- A part of the state that a frame names: each register, each byte of memory and each pixel is a part of its own. -/
inductive Part where
  | reg (r : Reg)
  | index
  | pc
  | stack
  | delayTimer
  | soundTimer
  | byte (a : Nat)
  | pixel (cx : Fin 64) (cy : Fin 32)
  | status
  | config
  /-- The host's inputs: what is pending, and the number of the coming draw. -/
  | inputs
  /-- The outputs of the last Step. -/
  | output
deriving DecidableEq, Repr

/-- The part is the same in both states, read as an instruction or the host would read it. -/
def Part.same (p : Part) (s t : State) : Prop :=
  match p with
  | .reg r => t.reg r = s.reg r
  | .index => t.I = s.I
  | .pc => t.PC = s.PC
  | .stack => t.S = s.S
  | .delayTimer => t.DT = s.DT
  | .soundTimer => t.ST = s.ST
  | .byte a => t.readByte a = s.readByte a
  | .pixel cx cy => t.pixel cx cy = s.pixel cx cy
  | .status => t.status = s.status
  | .config => t.config = s.config
  | .inputs => t.pending = s.pending ∧ t.drawIndex = s.drawIndex
  | .output => t.OUT = s.OUT

/-- From `s` to `t` every part is unchanged except those named. -/
def ChangesOnly (named : Part → Prop) (s t : State) : Prop := ∀ p, ¬ named p → p.same s t

/-- What holds of a machine that has been reset and has not faulted: it is running (R22); memory keeps its canonical form; the
stack is within its depth (R15); every return address is at most 4096 (R80, R83); PC is at most 0x10FE (R14). -/
structure Inv (s : State) : Prop where
  running : s.status = .running
  memory : Memory.wf s.config s.MEM
  stackBound : s.S.length ≤ s.config.stackDepth
  returnAddresses : ∀ v ∈ s.S, v.toNat ≤ 4096
  pcBound : s.PC.toNat ≤ 0x10FE

/-- Whether a sprite of `n` rows whose top-left pixel is at column `x0`, row `y0` has a 1 for a display pixel: pixel (row `i`,
column `j`) is bit `7 - j` of the byte at `I + i`, and targets `DISP[x0 + j][y0 + i]` where that is on the screen (R137). -/
def spritePixel (s : State) (x0 y0 n : Nat) (cx : Fin 64) (cy : Fin 32) : Bool :=
  decide (x0 ≤ cx.val ∧ cx.val < x0 + 8 ∧ y0 ≤ cy.val ∧ cy.val < y0 + n) &&
    spriteBit (s.readByte (effectiveAddress s (cy.val - y0))) (cx.val - x0)

/-- The inputs of the Step after `k` further Steps: what the host has fixed, or a free value (R19 to R21). -/
def State.inputAt (s : State) (k : Nat) : StepInput := (s.pending[k]?).getD (Config.freeInput (s.drawIndex + k))

/-- `k` Steps from `s` all complete, and lead to `t`: the form 'after exactly `k` Steps' in which a claim names the end of its
run (R199; the spec's own decision D28, log entry 29). A fault is never such an end (R171). Nothing tells the host to stop:
the hardware has no halt and no exit, cannot say that a program is finished, and goes on at every further call of Step; the
`k` is the claim's own. -/
def RunsTo (k : Nat) (s t : State) : Prop := Host.Core.run Sys2Proof.core k s = .next t

end Sys2Proof.Machine
end

