-- ==== Sys2Proof/Certificates/Slice0/Obligations.lean ====
section
/-! DEFINITION. The statements for the provers, from the numbered rules of spec/. A statement about a meaning is about the
dispatch phase: PC already holds `pc_fetch + 2` and the timers are ticked (R68, R69). A frame is `ChangesOnly`: every part of
the state that is not named is unchanged. -/

namespace Sys2Proof.Machine

/-! ### Terms used below -/

/-- The next state of an outcome changed by a function; a fault or a refusal as it is. -/
def mapNext (f : State → State) : Host.Outcome State Fault Refusal → Host.Outcome State Fault Refusal
  | .next t => .next (f t)
  | .fault e => .fault e
  | .refused r => .refused r

/-- A word of one of the six illegal sets of R56, as numbers: family `w / 4096`, `x = w / 256 % 16`, `n = w % 16`,
`kk = w % 256`. -/
def IllegalWord (w : Word) : Prop :=
  (w.toNat < 0x100 ∧ w.toNat ≠ 0xE0 ∧ w.toNat ≠ 0xEE) ∨
  (w.toNat / 4096 = 0x5 ∧ w.toNat % 16 ≠ 0) ∨
  (w.toNat / 4096 = 0x8 ∧ w.toNat % 16 ∈ [0x8, 0x9, 0xA, 0xB, 0xC, 0xD, 0xF]) ∨
  (w.toNat / 4096 = 0x9 ∧ w.toNat % 16 ≠ 0) ∨
  (w.toNat / 4096 = 0xE ∧ w.toNat % 256 ∉ [0x9E, 0xA1]) ∨
  (w.toNat / 4096 = 0xF ∧ w.toNat % 256 ∉ [0x07, 0x0A, 0x15, 0x18, 0x1E, 0x29, 0x33, 0x55, 0x65])

/-- The last row index of a draw whose byte is read: row `n - 1`, or the first row off the screen (R136). -/
def lastRowRead (y0 n : Nat) : Nat := min (n - 1) (32 - y0)

/-- When an instruction completes without a fault: 00EE needs a return address (R80), 2nnn room for one (R83), the key skips a
key code (R145, R146), and the memory instructions valid addresses (R123 to R125, R136); every other one always completes. -/
def Completes (i : Instr) (s : State) : Prop :=
  match i with
  | .ret => s.S ≠ []
  | .call _ => s.S.length < s.config.stackDepth
  | .skp x | .sknp x => (s.reg x).toNat ≤ 15
  | .bcd _ => effectiveAddress s 2 < 4096
  | .stm x | .ldm x => effectiveAddress s x.val < 4096
  | .drw _ y n => n.val = 0 ∨ effectiveAddress s (lastRowRead ((s.reg y).toNat % 32) n.val) < 4096
  | _ => True

/-- The fault of each instruction that can raise one (R161); the address reported is the first invalid one (R166). -/
def faultOf (i : Instr) (s : State) : Fault :=
  match i with
  | .ret => .stackUnderflow (encode i) (s.PC - 2)
  | .call _ => .stackOverflow (encode i) (s.PC - 2)
  | .skp x | .sknp x => .keyIndexOutOfRange (encode i) (s.PC - 2) (s.reg x)
  | _ => .memoryOutOfBounds (encode i) (s.PC - 2) (max s.I.toNat 4096)

/-- The record of each such fault: the code of R161 and the extra value of causes 5 and 6 (the codes and `pc_fetch` as the
fault's PC are the spec's own decisions D15 and D33). -/
def recordOf (i : Instr) (s : State) : FaultRecord :=
  match i with
  | .ret => ⟨3, some (encode i), s.PC - 2, none⟩
  | .call _ => ⟨4, some (encode i), s.PC - 2, none⟩
  | .skp x | .sknp x => ⟨6, some (encode i), s.PC - 2, some (s.reg x).toNat⟩
  | _ => ⟨5, some (encode i), s.PC - 2, some (max s.I.toNat 4096)⟩

/-- The extra value that R161's table has recorded for each code, from the state before the Step that faults. -/
def extraOf (code : Nat) (s : State) : Option Nat :=
  match code with
  | 1 => some s.PC.toNat
  | 2 => (fetch s).map BitVec.toNat
  | 5 => some (max s.I.toNat 4096)
  | 6 => (fetch s).map fun w => (s.reg (fieldX w)).toNat
  | _ => none

/-- The registers an instruction may write: R11's list of the instructions that write registers, and R12's of those that write
VF as a side effect. -/
def MayWriteReg (i : Instr) (r : Reg) : Prop :=
  match i with
  | .ldImm x _ | .addImm x _ | .movReg x _ | .orReg x _ | .andReg x _ | .xorReg x _ | .rnd x _ | .ldVxDt x | .ldVxKey x =>
    r = x
  | .addReg x _ | .subReg x _ | .subnReg x _ => r = x ∨ r = 0xF
  | .shr x y | .shl x y => r = x ∨ r = y ∨ r = 0xF
  | .drw _ _ _ | .addI _ => r = 0xF
  | .ldm x => r ≤ x
  | _ => False

/-- What VF holds after an instruction, from the states before and after its dispatch: the table of R12 for the seven
instructions that write it as a side effect; every other one leaves it alone unless it is the destination. -/
def FlagAfter (i : Instr) (s t : State) : Prop :=
  match i with
  | .addReg x y => (t.reg 0xF).toNat = if 255 < (s.reg x).toNat + (s.reg y).toNat then 1 else 0
  | .subReg x y => (t.reg 0xF).toNat = if (s.reg y).toNat ≤ (s.reg x).toNat then 1 else 0
  | .shr _ y => (t.reg 0xF).toNat = (s.reg y).toNat % 2
  | .subnReg x y => (t.reg 0xF).toNat = if (s.reg x).toNat ≤ (s.reg y).toNat then 1 else 0
  | .shl _ y => (t.reg 0xF).toNat = (s.reg y).toNat / 128
  | .drw _ _ _ => (t.reg 0xF = 0 ∨ t.reg 0xF = 1) ∧
      (t.reg 0xF = 1 ↔ ∃ cx cy, s.pixel cx cy = true ∧ t.pixel cx cy = false)
  | .addI x => (t.reg 0xF).toNat = if 0xFFFF < s.I.toNat + (s.reg x).toNat then 1 else 0
  | _ => ¬ MayWriteReg i 0xF → t.reg 0xF = s.reg 0xF

/-- PC after a Step that dispatches the instruction, from the state before the Step: the table of R14. -/
def pcAfter (i : Instr) (s : State) : Nat :=
  let skip (c : Bool) : Nat := if c then s.PC.toNat + 4 else s.PC.toNat + 2
  match i with
  | .jp nnn | .call nnn => nnn.toNat
  | .jpV0 nnn => nnn.toNat + (s.reg 0).toNat
  | .ret => (s.S.headD 0).toNat
  | .seImm x kk => skip (s.reg x = kk)
  | .sneImm x kk => skip (s.reg x ≠ kk)
  | .seReg x y => skip (s.reg x = s.reg y)
  | .sneReg x y => skip (s.reg x ≠ s.reg y)
  | .skp x => skip (s.key (Fin.ofNat 16 (s.reg x).toNat) = true)
  | .sknp x => skip (s.key (Fin.ofNat 16 (s.reg x).toNat) = false)
  | .ldVxKey _ => if ∃ k, s.key k = true then s.PC.toNat + 2 else s.PC.toNat
  | _ => s.PC.toNat + 2

/-- The machine is running, and its next Step fetches the word (R67). -/
def Fetches (s : State) (w : Word) : Prop := s.status = .running ∧ fetch s = some w

/-- The machine's next Step dispatches the instruction (R67, R70). -/
def Dispatches (s : State) (i : Instr) : Prop := ∃ w, Fetches s w ∧ decodeWord w = .ok i

end Sys2Proof.Machine

open Sys2Proof Sys2Proof.Machine

/-! ### Encoding -/

/-- Every well-formed instruction's bytes decode to it, and the bytes after them are left (R33, R50, R52, R54, R55). -/
def Obligations.DecodeOfEncodeIsTheInstruction : Prop :=
  ∀ (i : Instr) (rest : List Byte), i.wellFormed = true → decode (encodeBytes i ++ rest) = .ok (i, rest)

/-- A word that decodes is the word of the instruction it decodes to, which is well-formed: no bit is dropped, and no two words
are one instruction (R54, R55, R57). -/
def Obligations.EncodeOfDecodeIsTheWord : Prop :=
  ∀ (w : Word) (i : Instr), decodeWord w = .ok i → encode i = w ∧ i.wellFormed = true

/-- A word selects exactly one row of the opcode map, the one with the label of the instruction it decodes to; an illegal word
selects none (R54, R55). -/
def Obligations.WordSelectsTheRowOfItsInstructionAlone : Prop :=
  ∀ w : Word, (opcodeRows.filter (·.selects w)).map (·.label) =
    match decodeWord w with
    | .ok i => [i.label]
    | .error _ => []

/-- R56, R58, R163: dispatching a word raises `UnknownOpcode`, with the word and the fetch address, exactly when the word is in
one of the six illegal sets (the union C1, families 5 and 9 by D13, and `pc_fetch` by D33 are the spec's own choices, log
entry 15). -/
def Obligations.UnknownOpcodeExactlyOnTheIllegalSets : Prop :=
  ∀ (s : State) (w : Word), Fetches s w →
    (IllegalWord w → step s = .fault (.unknownOpcode w s.PC)) ∧
    (¬ IllegalWord w → ∀ v pc, step s ≠ .fault (.unknownOpcode v pc))

/-- R57: the words 0x0100 to 0x0FFF, and no others, are the family-0 no-op; the low byte plays no part (that both of the
source's conditions mean `instr[11:8] != 0` is the spec's own resolution C2, log entry 16). -/
def Obligations.FamilyZeroNoOpSpaceIsExact : Prop :=
  ∀ w : Word, (∃ nnn, decodeWord w = .ok (.sysnop nnn)) ↔ 0x0100 ≤ w.toNat ∧ w.toNat ≤ 0x0FFF

/-- A few words of each family, written out from the patterns of R55, decode to their instructions; a few illegal ones to
none (R54, R56; that families 5 and 8 have illegal words is the spec's own choice D13 and C1, log entry 15). -/
def Obligations.SampleWordsDecodeAsThePatternsSay : Prop :=
  decodeWord 0x00E0 = .ok .cls ∧ decodeWord 0x00EE = .ok .ret ∧ decodeWord 0x0123 = .ok (.sysnop 0x123) ∧
  decodeWord 0x1204 = .ok (.jp 0x204) ∧ decodeWord 0x4A07 = .ok (.sneImm 0xA 0x07) ∧
  decodeWord 0x8126 = .ok (.shr 1 2) ∧ decodeWord 0xCF5A = .ok (.rnd 0xF 0x5A) ∧
  decodeWord 0xD012 = .ok (.drw 0 1 2) ∧ decodeWord 0xE19E = .ok (.skp 1) ∧ decodeWord 0xF265 = .ok (.ldm 2) ∧
  decodeWord 0x0000 = .error .illegalFamily0 ∧ decodeWord 0x5121 = .error .illegalFamily5 ∧
  decodeWord 0x8128 = .error .illegalFamily8 ∧ decodeWord 0xF1FF = .error .illegalFamilyF

/-! ### The Step -/

/-- R70, R73: the Step of a running machine whose fetched word is an instruction is that instruction's meaning, run in the state
with PC advanced by 2 and the timers ticked, ended by `display_changed` and the use of the Step's inputs (outputs and inputs
stand in the state by log entries 7 and 6). -/
def Obligations.StepRunsTheDecodedInstruction : Prop :=
  ∀ (s : State) (w : Word) (i : Instr), Fetches s w → decodeWord w = .ok i →
    step s = finishStep s (exec i s.beginStep) ∧
    s.beginStep.PC = s.PC + 2 ∧
    s.beginStep.DT = (if s.tickEn = true ∧ s.DT ≠ 0 then s.DT - 1 else s.DT) ∧
    s.beginStep.ST = (if s.tickEn = true ∧ s.ST ≠ 0 then s.ST - 1 else s.ST) ∧
    s.beginStep.OUT = ⟨false, none⟩ ∧
    ChangesOnly (fun p => p = .pc ∨ p = .delayTimer ∨ p = .soundTimer ∨ p = .output) s s.beginStep ∧
    (∀ u, finishStep s (.next u) = .next (s.endStep u) ∧
      ChangesOnly (fun p => p = .output ∨ p = .inputs) u (s.endStep u) ∧
      (s.endStep u).OUT.logEvent = u.OUT.logEvent ∧
      (s.endStep u).pending = u.pending.tail ∧ (s.endStep u).drawIndex = u.drawIndex + 1) ∧
    (∀ f, finishStep s (.fault f) = .fault f) ∧ (∀ r, finishStep s (.refused r) = .refused r)

/-- R67, R162, R33: a Step faults `FetchOutOfBounds` exactly when PC is 4095 or more; otherwise it fetches the two bytes at PC
and PC + 1, the first as the high byte (the exact bound is the spec's own decision D5, log entry 13,
and the fetch at an odd PC its decision D4, log entry 25). -/
def Obligations.FetchReadsBigEndianBelow4095AndFaultsAbove : Prop :=
  ∀ s : State, s.status = .running →
    (4095 ≤ s.PC.toNat → step s = .fault (.fetchOutOfBounds s.PC)) ∧
    (s.PC.toNat < 4095 →
      (∃ w, fetch s = some w ∧
        w.toNat = (s.readByte s.PC.toNat).toNat * 256 + (s.readByte (s.PC.toNat + 1)).toNat) ∧
      ∀ pc, step s ≠ .fault (.fetchOutOfBounds pc))

/-- R66, R22: a faulted machine has no next state, whatever it holds; and a completed Step leaves the machine running (the status
and the missing Step are the spec's own decisions D14 and D32, log entry 8). -/
def Obligations.FaultedMachineHasNoStep : Prop :=
  (∀ (s : State) (r : FaultRecord), s.status = .faulted r → step s = .fault (.noStep r)) ∧
  (∀ s t : State, step s = .next t → t.status = .running) ∧
  (∀ (s : State) (f : Fault), step (s.enterFaulted f) = .fault (.noStep f.record))

/-- R69: in a Step that completes each timer holds the ticked value, but for the timer that the dispatched instruction writes;
Fx07 reads the ticked DT (what enables the tick is the spec's own decision D2, log entry 5). -/
def Obligations.TimersTickBeforeTheDispatch : Prop :=
  ∀ (s t : State) (i : Instr), Dispatches s i → step s = .next t →
    let ticked (v : Byte) : Byte := if s.tickEn = true ∧ v ≠ 0 then v - 1 else v
    ((∀ x, i ≠ .ldDtVx x) → t.DT = ticked s.DT) ∧
    ((∀ x, i ≠ .ldStVx x) → t.ST = ticked s.ST) ∧
    (∀ x, i = .ldVxDt x → t.reg x = ticked s.DT) ∧
    (∀ x, i = .ldDtVx x → t.DT = s.reg x) ∧
    (∀ x, i = .ldStVx x → t.ST = s.reg x)

/-- R21: in `PerCycle` mode every Step ticks; in `External` mode exactly those whose input enables it (two modes by the spec's own
decision D2; inputs as `State.offerInput` holds them by log entry 6). -/
def Obligations.TickEnableFollowsTheMode : Prop :=
  ∀ s : State, (s.config.tickMode = .perCycle → s.tickEn = true) ∧
    (s.config.tickMode = .external → ∀ i : StepInput, (s.offerInput i).tickEn = i.tickEn)

/-- R14: PC after a Step that completes, as the table says, for every instruction (from an odd PC too, by the spec's own
decision D4, log entry 25). -/
def Obligations.ProgramCounterAfterAStepIsAsTabled : Prop :=
  ∀ (s t : State) (i : Instr), Dispatches s i → step s = .next t → t.PC.toNat = pcAfter i s

/-- R72: `display_changed` is 1 exactly when a pixel differs after the Step, and only 00E0 and Dxyn can make it 1 (the literal
reading is the spec's own decision D18, log entry 18; the output stands in the state by log entry 7). -/
def Obligations.DisplayChangedExactlyWhenAPixelDiffers : Prop :=
  ∀ (s t : State) (i : Instr), Dispatches s i → step s = .next t →
    (t.OUT.displayChanged = true ↔ ∃ cx cy, t.pixel cx cy ≠ s.pixel cx cy) ∧
    (t.OUT.displayChanged = true → i = .cls ∨ ∃ x y n, i = .drw x y n)

/-- R168: a Step emits the log event, with the word and the fetch address, exactly when the word's family is 0 and its
`instr[11:8]` is not (the record is the spec's own decision D23; the output stands in the state by log entry 7; that the words
are exactly 0x0100 to 0x0FFF is its resolution C2, log entry 16). -/
def Obligations.LogEventExactlyOnFamilyZeroNoOps : Prop :=
  ∀ (s t : State) (w : Word), Fetches s w → step s = .next t →
    (0x0100 ≤ w.toNat ∧ w.toNat ≤ 0x0FFF → t.OUT.logEvent = some ⟨w, s.PC⟩) ∧
    (¬ (0x0100 ≤ w.toNat ∧ w.toNat ≤ 0x0FFF) → t.OUT.logEvent = none)

/-- No Step is refused: every word is an instruction with a meaning, or a fault (R54, R56, R160). -/
def Obligations.NoStepIsRefused : Prop := ∀ (s : State) (r : Refusal), step s ≠ .refused r

/-- R161, R164 to R167, R170: each instruction completes exactly where no fault of its own is due, and raises that fault, with its
record, where one is (stack overflow, invalid data addresses and key indexes above 15 fault by the spec's own decisions D10,
D11 and D12, log entries 4, 12 and 14; the codes and `pc_fetch` as the fault's PC are D15 and D33, log entry 8; the read of a
draw's first clipped row is D17, log entry 17). -/
def Obligations.InstructionsFaultExactlyAsListed : Prop :=
  ∀ (i : Instr) (s : State),
    (Completes i s → ∃ t, exec i s = .next t) ∧
    (¬ Completes i s → exec i s = .fault (faultOf i s) ∧ (faultOf i s).record = recordOf i s)

/-- R161: the record of every fault a running machine's Step raises names the fetch address, the word fetched (none where none
was), and one of the six codes; code 1 exactly where no word was fetched, code 2 exactly where the word is illegal; and the
extra value that the table gives the code (the codes and `pc_fetch` as the fault's PC are the spec's own decisions D15 and D33,
log entry 8; which words are illegal its resolution C1 and decision D13, log entry 15; the faults of codes 5 and 6 its decisions
D11 and D12, log entries 12 and 14). -/
def Obligations.FaultRecordNamesWordAndFetchAddress : Prop :=
  ∀ (s : State) (f : Fault), s.status = .running → step s = .fault f →
    f.record.pcFetch = s.PC ∧ f.record.instr = fetch s ∧ 1 ≤ f.record.code ∧ f.record.code ≤ 6 ∧
    (f.record.code = 1 ↔ fetch s = none) ∧ (f.record.code = 2 ↔ ∃ w, fetch s = some w ∧ IllegalWord w) ∧
    f.record.extra = extraOf f.record.code s

/-- R23, R168: the outputs of one Step reach no later one (that they stand in the state at all is the model's choice, log
entry 7). -/
def Obligations.OutputsNeverInfluenceAStep : Prop :=
  ∀ (s : State) (o : StepOutput), step (s.setOutput o) = step s

/-- R19, R20: the keys reach only Ex9E, ExA1 and Fx0A, and the random byte only Cxkk. With other inputs, the outcome of an
instruction that is not Cxkk is the same where the keys are, whatever the random byte; that of one that is not Ex9E, ExA1 or
Fx0A where the random byte is, whatever the keys; that of every other instruction always; but for the inputs themselves (that
they stand in the state is the model's choice, log entry 6). -/
def Obligations.InputsReachOnlyKeyAndRandomInstructions : Prop :=
  ∀ (i : Instr) (s : State) (pending : List StepInput) (drawIndex : Nat),
    let s' : State := { s with pending := pending, drawIndex := drawIndex }
    let sameOutcome : Prop := exec i s' = mapNext (fun t => { t with pending := pending, drawIndex := drawIndex }) (exec i s)
    let readsKeys : Prop := (∃ x, i = .skp x) ∨ (∃ x, i = .sknp x) ∨ ∃ x, i = .ldVxKey x
    let readsRandom : Prop := ∃ x kk, i = .rnd x kk
    (¬ readsRandom → (∀ k, s'.key k = s.key k) → sameOutcome) ∧
    (¬ readsKeys → s'.rnd = s.rnd → sameOutcome) ∧
    (¬ readsKeys → ¬ readsRandom → sameOutcome)

/-- R13, R15, R18, R24, R36: a Step that completes changes memory only in Fx33 and Fx55, the display only in 00E0 and Dxyn, the
stack only in 2nnn and 00EE, I only in Annn, Fx1E and Fx29, and the parameters never (that Fx33, Fx55, Fx65 and Dxyn leave I
alone is the spec's own decision D26, log entry 17). -/
def Obligations.EachComponentChangesOnlyByItsInstructions : Prop :=
  ∀ (s t : State) (i : Instr), Dispatches s i → step s = .next t →
    t.config = s.config ∧
    ((∀ x, i ≠ .bcd x) → (∀ x, i ≠ .stm x) → t.MEM = s.MEM) ∧
    (i ≠ .cls → (∀ x y n, i ≠ .drw x y n) → t.DISP = s.DISP) ∧
    (i ≠ .ret → (∀ nnn, i ≠ .call nnn) → t.S = s.S) ∧
    ((∀ nnn, i ≠ .ldI nnn) → (∀ x, i ≠ .addI x) → (∀ x, i ≠ .ldF x) → t.I = s.I)

/-- R11, R12: a Step that completes changes no register but those on R11's and R12's lists for its instruction (that 8xy1 to
8xy3 leave VF alone is the spec's own decision D25, log entry 17). -/
def Obligations.RegistersChangeOnlyByTheirInstructions : Prop :=
  ∀ (s t : State) (i : Instr) (r : Reg), Dispatches s i → step s = .next t → ¬ MayWriteReg i r → t.reg r = s.reg r

/-- R12, R113: an instruction leaves in VF what the table says, from the values before it, whichever registers it names (the
write order, the untouched VF of 8xy1 to 8xy3 and the read of a draw's coordinates before VF is cleared are the spec's own
decisions D24, D25 and D16, log entry 17). -/
def Obligations.FlagRegisterReceivesTheTabledValue : Prop :=
  ∀ (i : Instr) (s t : State), exec i s = .next t → FlagAfter i s t

/-! ### The invariant, reset and load -/

/-- The invariant holds right after reset, whatever the parameters (R26, R190; PC and the stack are the spec's own decisions D6
and D27, log entries 9 and 10; memory's form is the model's choice, log entry 22). -/
def Obligations.ResetMeetsTheInvariant : Prop := ∀ c : Config, Inv (State.resetWith c)

/-- Every Step that completes keeps the invariant: running, canonical memory, bounded stack, return addresses of at most 4096,
PC of at most 0x10FE (R14, R15, R22, R80). The canonical form is the model's choice (log entry 22); the bounded stack rests on
the spec's own decision D10 (log entry 4). -/
def Obligations.EveryStepKeepsTheInvariant : Prop := ∀ s t : State, Inv s → step s = .next t → Inv t

/-- R26, R190: what reset leaves in every component of R10, for every `FONT_ROM` and `MEM_FILL`, from any state; and the
parameters stay (R24). PC, the stack and the fill are the spec's own decisions D6, D27 and D7 (log entries 9, 10 and 3); that
reset may be applied at any time is its decision D1 (log entry 30); that memory then lists nothing is the model's form (log
entry 22), and that outputs are quiet and the host's inputs stay is the model's choice (log entries 7 and 6). -/
def Obligations.ResetLeavesTheTabledValues : Prop :=
  ∀ s : State,
    let t := s.reapplyReset
    (∀ r, t.reg r = 0) ∧ t.I = 0 ∧ t.PC = 0x200 ∧ t.S = [] ∧ t.DT = 0 ∧ t.ST = 0 ∧ t.status = .running ∧
    (∀ cx cy, t.pixel cx cy = false) ∧
    (∀ k : Fin 80, t.readByte (0x050 + k.val) = s.config.fontRom[k.val]) ∧
    (∀ a, a < 0x050 ∨ 0x0A0 ≤ a → t.readByte a = s.config.memFill) ∧
    t.MEM = [] ∧ t.config = s.config ∧ t.OUT = ⟨false, none⟩ ∧ t.pending = s.pending ∧ t.drawIndex = s.drawIndex

/-- R191: after Load of at most 3584 bytes they stand at 0x200 upward and nothing else differs from reset; a longer program is
rejected (whole, by the spec's own decision D19, log entry 23; memory's form is the model's choice, log entry 22). -/
def Obligations.LoadPlacesTheProgramOrIsRejected : Prop :=
  ∀ (c : Config) (program : List Byte),
    (program.length ≤ 3584 → ∃ t, boot c program = .next t ∧
      (∀ k, k < program.length → some (t.readByte (0x200 + k)) = program[k]?) ∧
      ChangesOnly (fun p => ∃ k, k < program.length ∧ p = .byte (0x200 + k)) (State.resetWith c) t ∧
      Memory.wf t.config t.MEM) ∧
    (3584 < program.length → boot c program = .refused (.loadTooLong program.length))

/-! ### Memory -/

/-- R31: `MemRead` and `MemWrite` fault at 4096 and above; below, a read gives the cell and a write changes that one cell
(the fault is the spec's own decision D11, log entry 12). -/
def Obligations.MemoryReadsBackWhatWasWritten : Prop :=
  ∀ (s : State) (a : Nat) (v : Byte),
    (4096 ≤ a → memRead s a = .error a ∧ memWrite s a v = .error a) ∧
    (a < 4096 → memRead s a = .ok (s.readByte a) ∧
      ∃ t, memWrite s a v = .ok t ∧ t.readByte a = v ∧ ChangesOnly (fun p => p = .byte a) s t)

/-- Memories in canonical form that read alike at every address are the same list: the form is the model's own (log entry 22). -/
def Obligations.CanonicalMemoriesThatReadAlikeAreEqual : Prop :=
  ∀ (c : Config) (m m' : Memory), Memory.wf c m → Memory.wf c m' →
    (∀ a, Memory.read c m a = Memory.read c m' a) → m = m'

/-- R42: what Fx55 stores is what the next fetch reads, with nothing in between (anywhere in memory, and at an odd PC too, by the
spec's own decisions D9 and D4, log entry 25). -/
def Obligations.StoredBytesAreFetchedAtOnce : Prop :=
  ∀ (s t : State) (x k l : Reg), exec (.stm x) s = .next t → l ≤ x → l.val = k.val + 1 →
    s.PC.toNat = effectiveAddress s k.val → fetch t = some (joinBytes (s.reg k) (s.reg l))

/-! ### Control transfer -/

/-- R82, R88: 1nnn and Bnnn put their target in PC, unmasked and unchecked, and change nothing else. -/
def Obligations.JumpsSetProgramCounterOnly : Prop :=
  ∀ (nnn : Imm12) (s : State),
    (decodeWord (wordNNN 0x1#4 nnn) = .ok (.jp nnn) ∧
      ∃ t, exec (.jp nnn) s = .next t ∧ t.PC.toNat = nnn.toNat ∧ ChangesOnly (fun p => p = .pc) s t) ∧
    (decodeWord (wordNNN 0xB#4 nnn) = .ok (.jpV0 nnn) ∧
      ∃ t, exec (.jpV0 nnn) s = .next t ∧ t.PC.toNat = nnn.toNat + (s.reg 0).toNat ∧ ChangesOnly (fun p => p = .pc) s t)

/-- R83, R165: 2nnn pushes the advanced PC and jumps; on a full stack it faults (the spec's own decision D10, log entry 4,
and `pc_fetch` as the fault's PC D33, log entry 8). -/
def Obligations.CallPushesTheAdvancedProgramCounter : Prop :=
  ∀ (nnn : Imm12) (s : State), decodeWord (wordNNN 0x2#4 nnn) = .ok (.call nnn) ∧
    (s.S.length < s.config.stackDepth → ∃ t, exec (.call nnn) s = .next t ∧ t.S = s.PC :: s.S ∧
      t.PC.toNat = nnn.toNat ∧ ChangesOnly (fun p => p = .pc ∨ p = .stack) s t) ∧
    (s.config.stackDepth ≤ s.S.length → exec (.call nnn) s = .fault (.stackOverflow (wordNNN 0x2#4 nnn) (s.PC - 2)))

/-- R80, R164: 00EE pops the last pushed value into PC; on an empty stack it faults (`pc_fetch` as the fault's PC is the spec's
own decision D33, log entry 8). -/
def Obligations.ReturnPopsTheLastPushedAddress : Prop :=
  decodeWord 0x00EE = .ok .ret ∧
  ∀ s : State,
    (∀ v rest, s.S = v :: rest → ∃ t, exec .ret s = .next t ∧ t.PC = v ∧ t.S = rest ∧
      ChangesOnly (fun p => p = .pc ∨ p = .stack) s t) ∧
    (s.S = [] → exec .ret s = .fault (.stackUnderflow 0x00EE (s.PC - 2)))

/-- R80, R83: a call Step, and later a return Step on the stack it left, put PC back to the instruction after the call, and the
stack back to what it was. -/
def Obligations.ReturnGoesBackAfterTheCall : Prop :=
  ∀ (s t u v : State) (nnn : Imm12), Dispatches s (.call nnn) → step s = .next t →
    u.S = t.S → Dispatches u .ret → step u = .next v → v.PC.toNat = s.PC.toNat + 2 ∧ v.S = s.S

/-- R84 to R87: the skips on registers add 2 to PC exactly when their condition holds, and change nothing else. -/
def Obligations.RegisterSkipsAddTwoWhenTheConditionHolds : Prop :=
  ∀ (x y : Reg) (kk : Byte) (s : State),
    (decodeWord (wordXKK 0x3#4 x kk) = .ok (.seImm x kk) ∧ decodeWord (wordXKK 0x4#4 x kk) = .ok (.sneImm x kk) ∧
      decodeWord (wordXYN 0x5#4 x y 0x0#4) = .ok (.seReg x y) ∧ decodeWord (wordXYN 0x9#4 x y 0x0#4) = .ok (.sneReg x y)) ∧
    (∃ t, exec (.seImm x kk) s = .next t ∧ t.PC = (if s.reg x = kk then s.PC + 2 else s.PC) ∧
      ChangesOnly (fun p => p = .pc) s t) ∧
    (∃ t, exec (.sneImm x kk) s = .next t ∧ t.PC = (if s.reg x = kk then s.PC else s.PC + 2) ∧
      ChangesOnly (fun p => p = .pc) s t) ∧
    (∃ t, exec (.seReg x y) s = .next t ∧ t.PC = (if s.reg x = s.reg y then s.PC + 2 else s.PC) ∧
      ChangesOnly (fun p => p = .pc) s t) ∧
    (∃ t, exec (.sneReg x y) s = .next t ∧ t.PC = (if s.reg x = s.reg y then s.PC else s.PC + 2) ∧
      ChangesOnly (fun p => p = .pc) s t)

/-- R81: the family-0 no-op emits the log event and changes nothing else (the record of word and `pc_fetch` is the spec's own
decision D23, and stands in the state by log entry 7; that 'no state change' is of the dispatch only, and which words are the
no-op, are its resolutions C9 and C2, log entry 16). -/
def Obligations.FamilyZeroNoOpOnlyLogs : Prop :=
  ∀ (nnn : Imm12) (s : State),
    (0x100 ≤ nnn.toNat → decodeWord (wordNNN 0x0#4 nnn) = .ok (.sysnop nnn)) ∧
    ∃ t, exec (.sysnop nnn) s = .next t ∧ t.OUT.logEvent = some ⟨wordNNN 0x0#4 nnn, s.PC - 2⟩ ∧
      t.OUT.displayChanged = s.OUT.displayChanged ∧ ChangesOnly (fun p => p = .output) s t

/-! ### Register load, arithmetic, logic, shift and random -/

/-- R100: 6xkk leaves `V[x] = kk` and changes nothing else. -/
def Obligations.LoadImmediateWritesItsRegisterOnly : Prop :=
  ∀ (x : Reg) (kk : Byte) (s : State), decodeWord (wordXKK 0x6#4 x kk) = .ok (.ldImm x kk) ∧
    ∃ t, exec (.ldImm x kk) s = .next t ∧ t.reg x = kk ∧ ChangesOnly (fun p => p = .reg x) s t

/-- R101: 7xkk adds modulo 256 and writes no flag. -/
def Obligations.AddImmediateWrapsAndLeavesTheFlag : Prop :=
  ∀ (x : Reg) (kk : Byte) (s : State), decodeWord (wordXKK 0x7#4 x kk) = .ok (.addImm x kk) ∧
    ∃ t, exec (.addImm x kk) s = .next t ∧ (t.reg x).toNat = ((s.reg x).toNat + kk.toNat) % 256 ∧
      ChangesOnly (fun p => p = .reg x) s t

/-- R102: 8xy0 copies V[y] into V[x] and changes nothing else. -/
def Obligations.MoveCopiesTheRegister : Prop :=
  ∀ (x y : Reg) (s : State), decodeWord (wordXYN 0x8#4 x y 0x0#4) = .ok (.movReg x y) ∧
    ∃ t, exec (.movReg x y) s = .next t ∧ t.reg x = s.reg y ∧ ChangesOnly (fun p => p = .reg x) s t

/-- R103 to R105: 8xy1, 8xy2 and 8xy3 or, and, exclusive-or V[y] into V[x], bit by bit, and write no flag (that VF is left
alone is the spec's own decision D25, log entry 17). -/
def Obligations.LogicWritesItsRegisterOnly : Prop :=
  ∀ (x y : Reg) (s : State),
    (decodeWord (wordXYN 0x8#4 x y 0x1#4) = .ok (.orReg x y) ∧ decodeWord (wordXYN 0x8#4 x y 0x2#4) = .ok (.andReg x y) ∧
      decodeWord (wordXYN 0x8#4 x y 0x3#4) = .ok (.xorReg x y)) ∧
    (∃ t, exec (.orReg x y) s = .next t ∧
      (∀ b, (t.reg x).getLsbD b = ((s.reg x).getLsbD b || (s.reg y).getLsbD b)) ∧ ChangesOnly (fun p => p = .reg x) s t) ∧
    (∃ t, exec (.andReg x y) s = .next t ∧
      (∀ b, (t.reg x).getLsbD b = ((s.reg x).getLsbD b && (s.reg y).getLsbD b)) ∧ ChangesOnly (fun p => p = .reg x) s t) ∧
    (∃ t, exec (.xorReg x y) s = .next t ∧
      (∀ b, (t.reg x).getLsbD b = ((s.reg x).getLsbD b != (s.reg y).getLsbD b)) ∧ ChangesOnly (fun p => p = .reg x) s t)

/-- R106, R113: 8xy4 adds modulo 256, then writes the carry to VF; with `x = 0xF` the carry stays (VF written last, from the old
operands, is the spec's own decision D24, log entry 17). -/
def Obligations.AddWritesTheSumThenTheCarry : Prop :=
  ∀ (x y : Reg) (s : State), decodeWord (wordXYN 0x8#4 x y 0x4#4) = .ok (.addReg x y) ∧
    ∃ t, exec (.addReg x y) s = .next t ∧
      (x ≠ 0xF → (t.reg x).toNat = ((s.reg x).toNat + (s.reg y).toNat) % 256) ∧
      (t.reg 0xF).toNat = (if 255 < (s.reg x).toNat + (s.reg y).toNat then 1 else 0) ∧
      ChangesOnly (fun p => p = .reg x ∨ p = .reg 0xF) s t

/-- R107, R109, R113: 8xy5 and 8xy7 subtract modulo 256, one way and the other, then write to VF that no borrow occurred
(VF written last, from the old operands, is the spec's own decision D24, log entry 17). -/
def Obligations.SubtractionsWriteTheDifferenceThenNoBorrow : Prop :=
  ∀ (x y : Reg) (s : State),
    (decodeWord (wordXYN 0x8#4 x y 0x5#4) = .ok (.subReg x y) ∧ decodeWord (wordXYN 0x8#4 x y 0x7#4) = .ok (.subnReg x y)) ∧
    (∃ t, exec (.subReg x y) s = .next t ∧
      (x ≠ 0xF → (t.reg x).toNat = (if (s.reg y).toNat ≤ (s.reg x).toNat then (s.reg x).toNat - (s.reg y).toNat
        else 256 - (s.reg y).toNat + (s.reg x).toNat)) ∧
      (t.reg 0xF).toNat = (if (s.reg y).toNat ≤ (s.reg x).toNat then 1 else 0) ∧
      ChangesOnly (fun p => p = .reg x ∨ p = .reg 0xF) s t) ∧
    (∃ t, exec (.subnReg x y) s = .next t ∧
      (x ≠ 0xF → (t.reg x).toNat = (if (s.reg x).toNat ≤ (s.reg y).toNat then (s.reg y).toNat - (s.reg x).toNat
        else 256 - (s.reg x).toNat + (s.reg y).toNat)) ∧
      (t.reg 0xF).toNat = (if (s.reg x).toNat ≤ (s.reg y).toNat then 1 else 0) ∧
      ChangesOnly (fun p => p = .reg x ∨ p = .reg 0xF) s t)

/-- R108, R110, R113: 8xy6 and 8xyE shift the old V[y] by one into V[y] and V[x], then write the bit shifted out to VF
(which write wins where a register is VF is the spec's own decision D24, log entry 17). -/
def Obligations.ShiftsWriteBothRegistersThenTheBitShiftedOut : Prop :=
  ∀ (x y : Reg) (s : State),
    (decodeWord (wordXYN 0x8#4 x y 0x6#4) = .ok (.shr x y) ∧ decodeWord (wordXYN 0x8#4 x y 0xE#4) = .ok (.shl x y)) ∧
    (∃ t, exec (.shr x y) s = .next t ∧
      (∀ r, r = x ∨ r = y → r ≠ 0xF → (t.reg r).toNat = (s.reg y).toNat / 2) ∧
      (t.reg 0xF).toNat = (s.reg y).toNat % 2 ∧
      ChangesOnly (fun p => p = .reg x ∨ p = .reg y ∨ p = .reg 0xF) s t) ∧
    (∃ t, exec (.shl x y) s = .next t ∧
      (∀ r, r = x ∨ r = y → r ≠ 0xF → (t.reg r).toNat = (s.reg y).toNat * 2 % 256) ∧
      (t.reg 0xF).toNat = (s.reg y).toNat / 128 ∧
      ChangesOnly (fun p => p = .reg x ∨ p = .reg y ∨ p = .reg 0xF) s t)

/-- R111, R20: Cxkk writes the Step's random byte under the mask `kk`, from every state, whether the host has fixed the byte or it
is a free value; and so for every byte the host may fix (that it is any byte at every Step is the spec's own decision D21, log
entry 26; where it stands in the state, and that `offerInput` fixes it, is the model's choice, log entry 6). -/
def Obligations.RandomByteIsMasked : Prop :=
  ∀ (x : Reg) (kk : Byte) (s : State) (input : StepInput), decodeWord (wordXKK 0xC#4 x kk) = .ok (.rnd x kk) ∧
    (∃ t, exec (.rnd x kk) s = .next t ∧
      (∀ b, (t.reg x).getLsbD b = (s.rnd.getLsbD b && kk.getLsbD b)) ∧ (t.reg x).toNat ≤ kk.toNat ∧
      ChangesOnly (fun p => p = .reg x) s t) ∧
    ∃ t, exec (.rnd x kk) (s.offerInput input) = .next t ∧
      (∀ b, (t.reg x).getLsbD b = (input.rnd.getLsbD b && kk.getLsbD b)) ∧ (t.reg x).toNat ≤ kk.toNat ∧
      ChangesOnly (fun p => p = .reg x) (s.offerInput input) t

/-! ### Index register and memory -/

/-- R120: Annn writes `nnn` to I, its upper four bits 0, and changes nothing else. -/
def Obligations.IndexLoadWritesTheIndexOnly : Prop :=
  ∀ (nnn : Imm12) (s : State), decodeWord (wordNNN 0xA#4 nnn) = .ok (.ldI nnn) ∧
    ∃ t, exec (.ldI nnn) s = .next t ∧ t.I.toNat = nnn.toNat ∧ ChangesOnly (fun p => p = .index) s t

/-- R122: Fx29 writes `V[x]*5 + 0x50` to I, for the whole of V[x] (the spec's own decision D31, log entry 17), and changes
nothing else. -/
def Obligations.GlyphAddressIsWrittenForEveryValue : Prop :=
  ∀ (x : Reg) (s : State), decodeWord (wordXKK 0xF#4 x 0x29#8) = .ok (.ldF x) ∧
    ∃ t, exec (.ldF x) s = .next t ∧ t.I.toNat = (s.reg x).toNat * 5 + 0x50 ∧ ChangesOnly (fun p => p = .index) s t

/-- R121: Fx1E adds modulo 65536, then writes the carry out of 16 bits to VF (I unmasked and VF last are the spec's own decisions
D3 and D24, log entries 11 and 17). -/
def Obligations.AddToIndexWritesTheCarryOutOfSixteenBits : Prop :=
  ∀ (x : Reg) (s : State), decodeWord (wordXKK 0xF#4 x 0x1E#8) = .ok (.addI x) ∧
    ∃ t, exec (.addI x) s = .next t ∧ t.I.toNat = (s.I.toNat + (s.reg x).toNat) % 65536 ∧
      (t.reg 0xF).toNat = (if 0xFFFF < s.I.toNat + (s.reg x).toNat then 1 else 0) ∧
      ChangesOnly (fun p => p = .index ∨ p = .reg 0xF) s t

/-- R123: Fx33 stores the hundreds, tens and ones digits at I, I+1, I+2 and nothing else; it faults at the first invalid
address (the fault is the spec's own decision D11, log entry 12, its PC D33, log entry 8; I unchanged is D26, log entry 17). -/
def Obligations.DecimalDigitsAreStoredAtTheIndex : Prop :=
  ∀ (x : Reg) (s : State), decodeWord (wordXKK 0xF#4 x 0x33#8) = .ok (.bcd x) ∧
    (effectiveAddress s 2 < 4096 → ∃ t, exec (.bcd x) s = .next t ∧
      (t.readByte (effectiveAddress s 0)).toNat = (s.reg x).toNat / 100 ∧
      (t.readByte (effectiveAddress s 1)).toNat = (s.reg x).toNat / 10 % 10 ∧
      (t.readByte (effectiveAddress s 2)).toNat = (s.reg x).toNat % 10 ∧
      ChangesOnly (fun p => ∃ k, k ≤ 2 ∧ p = .byte (effectiveAddress s k)) s t) ∧
    (4096 ≤ effectiveAddress s 2 →
      exec (.bcd x) s = .fault (.memoryOutOfBounds (wordXKK 0xF#4 x 0x33#8) (s.PC - 2) (max s.I.toNat 4096)))

/-- R124: Fx55 stores V[0] to V[x] at I to I+x and nothing else; it faults at the first invalid address (the fault is the spec's
own decision D11, log entry 12, its PC D33, log entry 8; I unchanged is D26, log entry 17). -/
def Obligations.BlockStoreWritesRegistersToMemory : Prop :=
  ∀ (x : Reg) (s : State), decodeWord (wordXKK 0xF#4 x 0x55#8) = .ok (.stm x) ∧
    (effectiveAddress s x.val < 4096 → ∃ t, exec (.stm x) s = .next t ∧
      (∀ r, r ≤ x → t.readByte (effectiveAddress s r.val) = s.reg r) ∧
      ChangesOnly (fun p => ∃ r, r ≤ x ∧ p = .byte (effectiveAddress s r.val)) s t) ∧
    (4096 ≤ effectiveAddress s x.val →
      exec (.stm x) s = .fault (.memoryOutOfBounds (wordXKK 0xF#4 x 0x55#8) (s.PC - 2) (max s.I.toNat 4096)))

/-- R125: Fx65 loads V[0] to V[x] from I to I+x and changes nothing else; it faults at the first invalid address (the fault is
the spec's own decision D11, log entry 12, its PC D33, log entry 8; I unchanged is D26, log entry 17). -/
def Obligations.BlockLoadReadsRegistersFromMemory : Prop :=
  ∀ (x : Reg) (s : State), decodeWord (wordXKK 0xF#4 x 0x65#8) = .ok (.ldm x) ∧
    (effectiveAddress s x.val < 4096 → ∃ t, exec (.ldm x) s = .next t ∧
      (∀ r, r ≤ x → t.reg r = s.readByte (effectiveAddress s r.val)) ∧
      ChangesOnly (fun p => ∃ r, r ≤ x ∧ p = .reg r) s t) ∧
    (4096 ≤ effectiveAddress s x.val →
      exec (.ldm x) s = .fault (.memoryOutOfBounds (wordXKK 0xF#4 x 0x65#8) (s.PC - 2) (max s.I.toNat 4096)))

/-! ### Display -/

/-- R135: 00E0 makes every pixel false and changes nothing else; VF is not written. -/
def Obligations.ClearMakesEveryPixelFalse : Prop :=
  decodeWord 0x00E0 = .ok .cls ∧
  ∀ s : State, ∃ t, exec .cls s = .next t ∧ (∀ cx cy, t.pixel cx cy = false) ∧
    ChangesOnly (fun p => ∃ cx cy, p = .pixel cx cy) s t

/-- R136, R137: Dxyn flips exactly the pixels its visible sprite bits are 1 for, with the sprite at column `V[x] mod 64`, row
`V[y] mod 32` and clipped at the edges; VF is 1 exactly when a flipped pixel was lit; nothing else changes. It faults at the
first invalid address if any byte it reads, the first clipped row's among them, is not in memory (the order of the reads is
the spec's own decisions D16 and D17, the fault D11, its PC D33, and I unchanged D26, log entries 17, 12 and 8). -/
def Obligations.DrawFlipsTheSpriteAndReportsCollision : Prop :=
  ∀ (x y : Reg) (n : Height) (s : State), decodeWord (wordXYN 0xD#4 x y (nibble n)) = .ok (.drw x y n) ∧
    let x0 := (s.reg x).toNat % 64
    let y0 := (s.reg y).toNat % 32
    let inMemory := n.val = 0 ∨ effectiveAddress s (lastRowRead y0 n.val) < 4096
    (inMemory → ∃ t, exec (.drw x y n) s = .next t ∧
      (∀ cx cy, t.pixel cx cy = (s.pixel cx cy ^^ spritePixel s x0 y0 n.val cx cy)) ∧
      ((∃ cx cy, s.pixel cx cy = true ∧ spritePixel s x0 y0 n.val cx cy = true) → t.reg 0xF = 1) ∧
      (¬ (∃ cx cy, s.pixel cx cy = true ∧ spritePixel s x0 y0 n.val cx cy = true) → t.reg 0xF = 0) ∧
      ChangesOnly (fun p => p = .reg 0xF ∨ ∃ cx cy, p = .pixel cx cy) s t) ∧
    (¬ inMemory →
      exec (.drw x y n) s = .fault (.memoryOutOfBounds (wordXYN 0xD#4 x y (nibble n)) (s.PC - 2) (max s.I.toNat 4096)))

/-- R136 (f): drawing the same sprite at the same place twice restores the display; and on a clear display the second draw
collides if the first lit anything (I unchanged by a draw is the spec's own decision D26, log entry 17). -/
def Obligations.DrawingTwiceRestoresTheDisplay : Prop :=
  ∀ (x y : Reg) (n : Height) (s t u : State), x ≠ 0xF → y ≠ 0xF →
    exec (.drw x y n) s = .next t → exec (.drw x y n) t = .next u →
    (∀ cx cy, u.pixel cx cy = s.pixel cx cy) ∧
    ((∀ cx cy, s.pixel cx cy = false) → (∃ cx cy, t.pixel cx cy = true) → u.reg 0xF = 1)

/-! ### Keys and timers -/

/-- R145, R146, R167: Ex9E and ExA1 skip on the state of the key that V[x] names, and change nothing else; a value above 15
faults and is not masked (the spec's own decision D12, log entry 14; `pc_fetch` as the fault's PC D33, log entry 8). -/
def Obligations.KeySkipsTestTheKeyNamedByTheRegister : Prop :=
  ∀ (x : Reg) (s : State),
    (decodeWord (wordXKK 0xE#4 x 0x9E#8) = .ok (.skp x) ∧ decodeWord (wordXKK 0xE#4 x 0xA1#8) = .ok (.sknp x)) ∧
    (∀ k : Fin 16, (s.reg x).toNat = k.val →
      (∃ t, exec (.skp x) s = .next t ∧ t.PC = (if s.key k = true then s.PC + 2 else s.PC) ∧
        ChangesOnly (fun p => p = .pc) s t) ∧
      (∃ t, exec (.sknp x) s = .next t ∧ t.PC = (if s.key k = true then s.PC else s.PC + 2) ∧
        ChangesOnly (fun p => p = .pc) s t)) ∧
    (15 < (s.reg x).toNat →
      exec (.skp x) s = .fault (.keyIndexOutOfRange (wordXKK 0xE#4 x 0x9E#8) (s.PC - 2) (s.reg x)) ∧
      exec (.sknp x) s = .fault (.keyIndexOutOfRange (wordXKK 0xE#4 x 0xA1#8) (s.PC - 2) (s.reg x)))

/-- R148: Fx0A loads the lowest pressed key, and with none pressed puts PC back to itself; it changes nothing else. -/
def Obligations.KeyLoadTakesTheLowestPressedKeyOrRepeats : Prop :=
  ∀ (x : Reg) (s : State), decodeWord (wordXKK 0xF#4 x 0x0A#8) = .ok (.ldVxKey x) ∧
    (∀ k : Fin 16, s.key k = true → (∀ j, j < k → s.key j = false) →
      ∃ t, exec (.ldVxKey x) s = .next t ∧ (t.reg x).toNat = k.val ∧ ChangesOnly (fun p => p = .reg x) s t) ∧
    ((∀ k, s.key k = false) →
      ∃ t, exec (.ldVxKey x) s = .next t ∧ t.PC = s.PC - 2 ∧ ChangesOnly (fun p => p = .pc) s t)

/-- R147, R149, R150: Fx07 reads DT, Fx15 writes DT, Fx18 writes ST, and each changes nothing else. -/
def Obligations.TimerMovesWriteTheirDestinationOnly : Prop :=
  ∀ (x : Reg) (s : State),
    (decodeWord (wordXKK 0xF#4 x 0x07#8) = .ok (.ldVxDt x) ∧ decodeWord (wordXKK 0xF#4 x 0x15#8) = .ok (.ldDtVx x) ∧
      decodeWord (wordXKK 0xF#4 x 0x18#8) = .ok (.ldStVx x)) ∧
    (∃ t, exec (.ldVxDt x) s = .next t ∧ t.reg x = s.DT ∧ ChangesOnly (fun p => p = .reg x) s t) ∧
    (∃ t, exec (.ldDtVx x) s = .next t ∧ t.DT = s.reg x ∧ ChangesOnly (fun p => p = .delayTimer) s t) ∧
    (∃ t, exec (.ldStVx x) s = .next t ∧ t.ST = s.reg x ∧ ChangesOnly (fun p => p = .soundTimer) s t)

/-! ### Several Steps -/

/-- R148, R196, R174: while no key is pressed, any number of Steps on an Fx0A completes, leaves PC on it and everything else
as it was, and runs both timers down to 0 (that `PerCycle` mode ticks every Step is the spec's own decision D2, log entry 5; inputs
and outputs stand in the state by log entries 6 and 7). -/
def Obligations.KeyWaitRepeatsWhileTheTimersRunDown : Prop :=
  ∀ (x : Reg) (k : Nat) (s : State), Dispatches s (.ldVxKey x) → s.config.tickMode = .perCycle →
    (∀ j, j < k → ∀ key : Fin 16, (s.inputAt j).keys[key.val] = false) →
    ∃ t, RunsTo k s t ∧ t.DT.toNat = s.DT.toNat - k ∧ t.ST.toNat = s.ST.toNat - k ∧
      ChangesOnly (fun p => p = .delayTimer ∨ p = .soundTimer ∨ p = .inputs ∨ p = .output) s t

/-- R174, R195: in `PerCycle` mode, where Fx15 has written `v` to DT and no Fx15 runs in the `k` Steps after it, an Fx07 in the
Step after those reads `v - (k + 1)`, or 0 (that this mode ticks every Step is the spec's own decision D2, log entry 5). -/
def Obligations.DelayTimerCountsTheStepsSinceItWasSet : Prop :=
  ∀ (k : Nat) (s t u v : State) (x y : Reg), s.config.tickMode = .perCycle → Dispatches s (.ldDtVx x) → step s = .next t →
    RunsTo k t u → (∀ j, j < k → ∀ w z, RunsTo j t w → ¬ Dispatches w (.ldDtVx z)) →
    Dispatches u (.ldVxDt y) → step u = .next v → (v.reg y).toNat = (s.reg x).toNat - (k + 1)

/-- R199: a jump to itself leaves all of the machine's state but the timers. -/
def Obligations.JumpToSelfLeavesAllButTheTimers : Prop :=
  ∀ (s : State) (nnn : Imm12), Dispatches s (.jp nnn) → nnn.toNat = s.PC.toNat →
    ∃ t, step s = .next t ∧
      ChangesOnly (fun p => p = .delayTimer ∨ p = .soundTimer ∨ p = .inputs ∨ p = .output) s t
end

