-- ==== Sys2Proof/Laws/Decode.lean ====
section
/-! SUPPORT. Instruction words as numbers: the fields of a word (30_encoding.md R51), the word of each format (R52), a word as
its fields, and its bytes (R33). -/

namespace Sys2Proof

@[simp] theorem nibble_toFin (r : Fin 16) : (nibble r).toFin = r := rfl

@[simp] theorem nibble_ofToFin (b : BitVec 4) : nibble b.toFin = b := rfl

@[simp] theorem nibble_toNat (r : Fin 16) : (nibble r).toNat = r.val := rfl

/-- The number of two bit strings side by side. -/
theorem append_toNat {m n : Nat} (a : BitVec m) (b : BitVec n) : (a ++ b).toNat = a.toNat * 2 ^ n + b.toNat := by
  rw [BitVec.toNat_append, ← Nat.shiftLeft_add_eq_or_of_lt b.isLt, Nat.shiftLeft_eq]

/-! ### The fields as numbers (R51) -/

theorem fieldFamily_toNat (w : Word) : (fieldFamily w).toNat = w.toNat / 4096 := by
  have := w.isLt
  simp [fieldFamily, Nat.shiftRight_eq_div_pow]
  omega

theorem fieldX_val (w : Word) : (fieldX w).val = w.toNat / 256 % 16 := by
  have : (fieldX w).val = (w.extractLsb' 8 4).toNat := rfl
  rw [this]; simp [Nat.shiftRight_eq_div_pow]

theorem fieldY_val (w : Word) : (fieldY w).val = w.toNat / 16 % 16 := by
  have : (fieldY w).val = (w.extractLsb' 4 4).toNat := rfl
  rw [this]; simp [Nat.shiftRight_eq_div_pow]

theorem fieldN_toNat (w : Word) : (fieldN w).toNat = w.toNat % 16 := by simp [fieldN]

theorem fieldKk_toNat (w : Word) : (fieldKk w).toNat = w.toNat % 256 := by simp [fieldKk]

theorem fieldNnn_toNat (w : Word) : (fieldNnn w).toNat = w.toNat % 4096 := by simp [fieldNnn]

/-! ### The formats as numbers (R52) -/

theorem wordNNN_toNat (f : BitVec 4) (nnn : Imm12) : (wordNNN f nnn).toNat = f.toNat * 4096 + nnn.toNat :=
  append_toNat f nnn

theorem wordXKK_toNat (f : BitVec 4) (x : Reg) (kk : Byte) :
    (wordXKK f x kk).toNat = f.toNat * 4096 + x.val * 256 + kk.toNat := by
  have h1 := append_toNat f (nibble x)
  have h2 : (wordXKK f x kk).toNat = (f ++ nibble x).toNat * 2 ^ 8 + kk.toNat := append_toNat (f ++ nibble x) kk
  rw [nibble_toNat] at h1
  rw [h2, h1]
  ring

theorem wordXYN_toNat (f : BitVec 4) (x y : Reg) (n : BitVec 4) :
    (wordXYN f x y n).toNat = f.toNat * 4096 + x.val * 256 + y.val * 16 + n.toNat := by
  have h1 := append_toNat f (nibble x)
  have h2 := append_toNat (f ++ nibble x) (nibble y)
  have h3 : (wordXYN f x y n).toNat = (f ++ nibble x ++ nibble y).toNat * 2 ^ 4 + n.toNat :=
    append_toNat (f ++ nibble x ++ nibble y) n
  rw [nibble_toNat] at h1 h2
  rw [h3, h2, h1]
  ring

/-! ### The fields of a word built in each format -/

@[simp] theorem fieldFamily_wordNNN (f : BitVec 4) (nnn : Imm12) : fieldFamily (wordNNN f nnn) = f := by
  apply BitVec.eq_of_toNat_eq
  have := nnn.isLt
  rw [fieldFamily_toNat, wordNNN_toNat]; omega

@[simp] theorem fieldNnn_wordNNN (f : BitVec 4) (nnn : Imm12) : fieldNnn (wordNNN f nnn) = nnn := by
  apply BitVec.eq_of_toNat_eq
  have := nnn.isLt
  rw [fieldNnn_toNat, wordNNN_toNat]; omega

theorem fieldX_wordNNN (f : BitVec 4) (nnn : Imm12) : fieldX (wordNNN f nnn) = (nnn.extractLsb' 8 4).toFin := by
  apply Fin.ext
  have h : (nnn.extractLsb' 8 4).toFin.val = (nnn.extractLsb' 8 4).toNat := rfl
  have := nnn.isLt
  rw [fieldX_val, wordNNN_toNat, h, BitVec.extractLsb'_toNat, Nat.shiftRight_eq_div_pow]; omega

@[simp] theorem fieldFamily_wordXKK (f : BitVec 4) (x : Reg) (kk : Byte) : fieldFamily (wordXKK f x kk) = f := by
  apply BitVec.eq_of_toNat_eq
  have := kk.isLt
  rw [fieldFamily_toNat, wordXKK_toNat]; omega

@[simp] theorem fieldX_wordXKK (f : BitVec 4) (x : Reg) (kk : Byte) : fieldX (wordXKK f x kk) = x := by
  apply Fin.ext
  have := kk.isLt
  rw [fieldX_val, wordXKK_toNat]; omega

@[simp] theorem fieldKk_wordXKK (f : BitVec 4) (x : Reg) (kk : Byte) : fieldKk (wordXKK f x kk) = kk := by
  apply BitVec.eq_of_toNat_eq
  have := kk.isLt
  rw [fieldKk_toNat, wordXKK_toNat]; omega

@[simp] theorem fieldFamily_wordXYN (f : BitVec 4) (x y : Reg) (n : BitVec 4) : fieldFamily (wordXYN f x y n) = f := by
  apply BitVec.eq_of_toNat_eq
  have := n.isLt
  rw [fieldFamily_toNat, wordXYN_toNat]; omega

@[simp] theorem fieldX_wordXYN (f : BitVec 4) (x y : Reg) (n : BitVec 4) : fieldX (wordXYN f x y n) = x := by
  apply Fin.ext
  have := n.isLt
  rw [fieldX_val, wordXYN_toNat]; omega

@[simp] theorem fieldY_wordXYN (f : BitVec 4) (x y : Reg) (n : BitVec 4) : fieldY (wordXYN f x y n) = y := by
  apply Fin.ext
  have := n.isLt
  rw [fieldY_val, wordXYN_toNat]; omega

@[simp] theorem fieldN_wordXYN (f : BitVec 4) (x y : Reg) (n : BitVec 4) : fieldN (wordXYN f x y n) = n := by
  apply BitVec.eq_of_toNat_eq
  have := n.isLt
  rw [fieldN_toNat, wordXYN_toNat]; omega

/-! ### A word is its fields -/

theorem wordNNN_fields (w : Word) : wordNNN (fieldFamily w) (fieldNnn w) = w := by
  apply BitVec.eq_of_toNat_eq
  rw [wordNNN_toNat, fieldFamily_toNat, fieldNnn_toNat]; omega

theorem wordXKK_fields (w : Word) : wordXKK (fieldFamily w) (fieldX w) (fieldKk w) = w := by
  apply BitVec.eq_of_toNat_eq
  rw [wordXKK_toNat, fieldFamily_toNat, fieldX_val, fieldKk_toNat]; omega

theorem wordXYN_fields (w : Word) : wordXYN (fieldFamily w) (fieldX w) (fieldY w) (fieldN w) = w := by
  apply BitVec.eq_of_toNat_eq
  rw [wordXYN_toNat, fieldFamily_toNat, fieldX_val, fieldY_val, fieldN_toNat]; omega

/-! ### A word under the masks of R55 -/

theorem wordXYN_and (f g : BitVec 4) (x y u v : Reg) (n m : BitVec 4) : wordXYN f x y n &&& wordXYN g u v m =
    wordXYN (f &&& g) (nibble x &&& nibble u).toFin (nibble y &&& nibble v).toFin (n &&& m) := by
  unfold wordXYN
  rw [nibble_ofToFin (nibble x &&& nibble u), nibble_ofToFin (nibble y &&& nibble v), ← BitVec.and_append,
    ← BitVec.and_append]
  exact BitVec.and_append

/-- The mask 0xF000 keeps the family. -/
theorem and_F000 (w : Word) : w &&& 0xF000#16 = wordXYN (fieldFamily w) 0 0 0#4 := by
  have hm : 0xF000#16 = wordXYN 0xF#4 0 0 0#4 := by decide
  conv_lhs => rw [← wordXYN_fields w, hm, wordXYN_and]
  have h1 : ∀ a : BitVec 4, a &&& 0xF#4 = a := by decide
  have h2 : ∀ r : Reg, (nibble r &&& nibble 0).toFin = 0 := by decide
  have h3 : ∀ a : BitVec 4, a &&& 0#4 = 0#4 := by decide
  rw [h1, h2, h2, h3]

/-- The mask 0xF00F keeps the family and `n`. -/
theorem and_F00F (w : Word) : w &&& 0xF00F#16 = wordXYN (fieldFamily w) 0 0 (fieldN w) := by
  have hm : 0xF00F#16 = wordXYN 0xF#4 0 0 0xF#4 := by decide
  conv_lhs => rw [← wordXYN_fields w, hm, wordXYN_and]
  have h1 : ∀ a : BitVec 4, a &&& 0xF#4 = a := by decide
  have h2 : ∀ r : Reg, (nibble r &&& nibble 0).toFin = 0 := by decide
  rw [h1, h1, h2, h2]

/-- The mask 0xF0FF keeps the family and `kk`. -/
theorem and_F0FF (w : Word) : w &&& 0xF0FF#16 = wordXKK (fieldFamily w) 0 (fieldKk w) := by
  have hm : 0xF0FF#16 = wordXYN 0xF#4 0 15 0xF#4 := by decide
  conv_lhs => rw [← wordXYN_fields w, hm, wordXYN_and]
  have h1 : ∀ a : BitVec 4, a &&& 0xF#4 = a := by decide
  have h2 : ∀ r : Reg, (nibble r &&& nibble 0).toFin = 0 := by decide
  have h3 : ∀ r : Reg, (nibble r &&& nibble 15).toFin = r := by decide
  rw [h1, h1, h2, h3]
  apply BitVec.eq_of_toNat_eq
  rw [wordXYN_toNat, wordXKK_toNat, fieldY_val, fieldN_toNat, fieldKk_toNat]
  omega

/-- The mask 0xFFFF keeps the word. -/
theorem and_FFFF (w : Word) : w &&& 0xFFFF#16 = w := BitVec.and_allOnes (x := w)

/-! ### The bytes of a word (R33) -/

theorem joinBytes_toNat (hi lo : Byte) : (joinBytes hi lo).toNat = hi.toNat * 256 + lo.toNat :=
  append_toNat hi lo

theorem highByte_toNat (w : Word) : (highByte w).toNat = w.toNat / 256 := by
  have := w.isLt
  simp [highByte, Nat.shiftRight_eq_div_pow]
  omega

theorem lowByte_toNat (w : Word) : (lowByte w).toNat = w.toNat % 256 := by simp [lowByte]

@[simp] theorem joinBytes_high_low (w : Word) : joinBytes (highByte w) (lowByte w) = w := by
  apply BitVec.eq_of_toNat_eq
  rw [joinBytes_toNat, highByte_toNat, lowByte_toNat]; omega

@[simp] theorem highByte_joinBytes (hi lo : Byte) : highByte (joinBytes hi lo) = hi := by
  apply BitVec.eq_of_toNat_eq
  have := lo.isLt
  rw [highByte_toNat, joinBytes_toNat]; omega

@[simp] theorem lowByte_joinBytes (hi lo : Byte) : lowByte (joinBytes hi lo) = lo := by
  apply BitVec.eq_of_toNat_eq
  have := lo.isLt
  rw [lowByte_toNat, joinBytes_toNat]; omega

end Sys2Proof
end

