-- ==== Sys2Proof/Laws/State.lean ====
section
/-! SUPPORT. One lemma for each field under each update of the state, and for each read of a register, byte, pixel or input,
so that no proof unfolds a record update. -/

namespace Sys2Proof.Machine

/-! `setReg` -/

@[simp] theorem State.setReg_config (s : State) (q : Reg) (v : Byte) : (s.setReg q v).config = s.config := rfl
@[simp] theorem State.setReg_I (s : State) (q : Reg) (v : Byte) : (s.setReg q v).I = s.I := rfl
@[simp] theorem State.setReg_PC (s : State) (q : Reg) (v : Byte) : (s.setReg q v).PC = s.PC := rfl
@[simp] theorem State.setReg_S (s : State) (q : Reg) (v : Byte) : (s.setReg q v).S = s.S := rfl
@[simp] theorem State.setReg_DT (s : State) (q : Reg) (v : Byte) : (s.setReg q v).DT = s.DT := rfl
@[simp] theorem State.setReg_ST (s : State) (q : Reg) (v : Byte) : (s.setReg q v).ST = s.ST := rfl
@[simp] theorem State.setReg_MEM (s : State) (q : Reg) (v : Byte) : (s.setReg q v).MEM = s.MEM := rfl
@[simp] theorem State.setReg_DISP (s : State) (q : Reg) (v : Byte) : (s.setReg q v).DISP = s.DISP := rfl
@[simp] theorem State.setReg_status (s : State) (q : Reg) (v : Byte) : (s.setReg q v).status = s.status := rfl
@[simp] theorem State.setReg_pending (s : State) (q : Reg) (v : Byte) : (s.setReg q v).pending = s.pending := rfl
@[simp] theorem State.setReg_drawIndex (s : State) (q : Reg) (v : Byte) : (s.setReg q v).drawIndex = s.drawIndex := rfl
@[simp] theorem State.setReg_OUT (s : State) (q : Reg) (v : Byte) : (s.setReg q v).OUT = s.OUT := rfl
@[simp] theorem State.setReg_readByte (s : State) (q : Reg) (v : Byte) (a : Nat) : (s.setReg q v).readByte a = s.readByte a := rfl
@[simp] theorem State.setReg_pixel (s : State) (q : Reg) (v : Byte) (cx : Fin 64) (cy : Fin 32) : (s.setReg q v).pixel cx cy = s.pixel cx cy := rfl
@[simp] theorem State.setReg_input (s : State) (q : Reg) (v : Byte) : (s.setReg q v).input = s.input := rfl
@[simp] theorem State.setReg_key (s : State) (q : Reg) (v : Byte) (k : Fin 16) : (s.setReg q v).key k = s.key k := rfl
@[simp] theorem State.setReg_rnd (s : State) (q : Reg) (v : Byte) : (s.setReg q v).rnd = s.rnd := rfl
@[simp] theorem State.setReg_tickEn (s : State) (q : Reg) (v : Byte) : (s.setReg q v).tickEn = s.tickEn := rfl

/-! `setVF` -/

@[simp] theorem State.setVF_config (s : State) (b : Bool) : (s.setVF b).config = s.config := rfl
@[simp] theorem State.setVF_I (s : State) (b : Bool) : (s.setVF b).I = s.I := rfl
@[simp] theorem State.setVF_PC (s : State) (b : Bool) : (s.setVF b).PC = s.PC := rfl
@[simp] theorem State.setVF_S (s : State) (b : Bool) : (s.setVF b).S = s.S := rfl
@[simp] theorem State.setVF_DT (s : State) (b : Bool) : (s.setVF b).DT = s.DT := rfl
@[simp] theorem State.setVF_ST (s : State) (b : Bool) : (s.setVF b).ST = s.ST := rfl
@[simp] theorem State.setVF_MEM (s : State) (b : Bool) : (s.setVF b).MEM = s.MEM := rfl
@[simp] theorem State.setVF_DISP (s : State) (b : Bool) : (s.setVF b).DISP = s.DISP := rfl
@[simp] theorem State.setVF_status (s : State) (b : Bool) : (s.setVF b).status = s.status := rfl
@[simp] theorem State.setVF_pending (s : State) (b : Bool) : (s.setVF b).pending = s.pending := rfl
@[simp] theorem State.setVF_drawIndex (s : State) (b : Bool) : (s.setVF b).drawIndex = s.drawIndex := rfl
@[simp] theorem State.setVF_OUT (s : State) (b : Bool) : (s.setVF b).OUT = s.OUT := rfl
@[simp] theorem State.setVF_readByte (s : State) (b : Bool) (a : Nat) : (s.setVF b).readByte a = s.readByte a := rfl
@[simp] theorem State.setVF_pixel (s : State) (b : Bool) (cx : Fin 64) (cy : Fin 32) : (s.setVF b).pixel cx cy = s.pixel cx cy := rfl
@[simp] theorem State.setVF_input (s : State) (b : Bool) : (s.setVF b).input = s.input := rfl
@[simp] theorem State.setVF_key (s : State) (b : Bool) (k : Fin 16) : (s.setVF b).key k = s.key k := rfl
@[simp] theorem State.setVF_rnd (s : State) (b : Bool) : (s.setVF b).rnd = s.rnd := rfl
@[simp] theorem State.setVF_tickEn (s : State) (b : Bool) : (s.setVF b).tickEn = s.tickEn := rfl

/-! `setI` -/

@[simp] theorem State.setI_config (s : State) (v : Word) : (s.setI v).config = s.config := rfl
@[simp] theorem State.setI_V (s : State) (v : Word) : (s.setI v).V = s.V := rfl
@[simp] theorem State.setI_PC (s : State) (v : Word) : (s.setI v).PC = s.PC := rfl
@[simp] theorem State.setI_S (s : State) (v : Word) : (s.setI v).S = s.S := rfl
@[simp] theorem State.setI_DT (s : State) (v : Word) : (s.setI v).DT = s.DT := rfl
@[simp] theorem State.setI_ST (s : State) (v : Word) : (s.setI v).ST = s.ST := rfl
@[simp] theorem State.setI_MEM (s : State) (v : Word) : (s.setI v).MEM = s.MEM := rfl
@[simp] theorem State.setI_DISP (s : State) (v : Word) : (s.setI v).DISP = s.DISP := rfl
@[simp] theorem State.setI_status (s : State) (v : Word) : (s.setI v).status = s.status := rfl
@[simp] theorem State.setI_pending (s : State) (v : Word) : (s.setI v).pending = s.pending := rfl
@[simp] theorem State.setI_drawIndex (s : State) (v : Word) : (s.setI v).drawIndex = s.drawIndex := rfl
@[simp] theorem State.setI_OUT (s : State) (v : Word) : (s.setI v).OUT = s.OUT := rfl
@[simp] theorem State.setI_I (s : State) (v : Word) : (s.setI v).I = v := rfl
@[simp] theorem State.setI_reg (s : State) (v : Word) (r : Reg) : (s.setI v).reg r = s.reg r := rfl
@[simp] theorem State.setI_readByte (s : State) (v : Word) (a : Nat) : (s.setI v).readByte a = s.readByte a := rfl
@[simp] theorem State.setI_pixel (s : State) (v : Word) (cx : Fin 64) (cy : Fin 32) : (s.setI v).pixel cx cy = s.pixel cx cy := rfl
@[simp] theorem State.setI_input (s : State) (v : Word) : (s.setI v).input = s.input := rfl
@[simp] theorem State.setI_key (s : State) (v : Word) (k : Fin 16) : (s.setI v).key k = s.key k := rfl
@[simp] theorem State.setI_rnd (s : State) (v : Word) : (s.setI v).rnd = s.rnd := rfl
@[simp] theorem State.setI_tickEn (s : State) (v : Word) : (s.setI v).tickEn = s.tickEn := rfl

/-! `setPC` -/

@[simp] theorem State.setPC_config (s : State) (v : Word) : (s.setPC v).config = s.config := rfl
@[simp] theorem State.setPC_V (s : State) (v : Word) : (s.setPC v).V = s.V := rfl
@[simp] theorem State.setPC_I (s : State) (v : Word) : (s.setPC v).I = s.I := rfl
@[simp] theorem State.setPC_S (s : State) (v : Word) : (s.setPC v).S = s.S := rfl
@[simp] theorem State.setPC_DT (s : State) (v : Word) : (s.setPC v).DT = s.DT := rfl
@[simp] theorem State.setPC_ST (s : State) (v : Word) : (s.setPC v).ST = s.ST := rfl
@[simp] theorem State.setPC_MEM (s : State) (v : Word) : (s.setPC v).MEM = s.MEM := rfl
@[simp] theorem State.setPC_DISP (s : State) (v : Word) : (s.setPC v).DISP = s.DISP := rfl
@[simp] theorem State.setPC_status (s : State) (v : Word) : (s.setPC v).status = s.status := rfl
@[simp] theorem State.setPC_pending (s : State) (v : Word) : (s.setPC v).pending = s.pending := rfl
@[simp] theorem State.setPC_drawIndex (s : State) (v : Word) : (s.setPC v).drawIndex = s.drawIndex := rfl
@[simp] theorem State.setPC_OUT (s : State) (v : Word) : (s.setPC v).OUT = s.OUT := rfl
@[simp] theorem State.setPC_PC (s : State) (v : Word) : (s.setPC v).PC = v := rfl
@[simp] theorem State.setPC_reg (s : State) (v : Word) (r : Reg) : (s.setPC v).reg r = s.reg r := rfl
@[simp] theorem State.setPC_readByte (s : State) (v : Word) (a : Nat) : (s.setPC v).readByte a = s.readByte a := rfl
@[simp] theorem State.setPC_pixel (s : State) (v : Word) (cx : Fin 64) (cy : Fin 32) : (s.setPC v).pixel cx cy = s.pixel cx cy := rfl
@[simp] theorem State.setPC_input (s : State) (v : Word) : (s.setPC v).input = s.input := rfl
@[simp] theorem State.setPC_key (s : State) (v : Word) (k : Fin 16) : (s.setPC v).key k = s.key k := rfl
@[simp] theorem State.setPC_rnd (s : State) (v : Word) : (s.setPC v).rnd = s.rnd := rfl
@[simp] theorem State.setPC_tickEn (s : State) (v : Word) : (s.setPC v).tickEn = s.tickEn := rfl

/-! `setDT` -/

@[simp] theorem State.setDT_config (s : State) (v : Byte) : (s.setDT v).config = s.config := rfl
@[simp] theorem State.setDT_V (s : State) (v : Byte) : (s.setDT v).V = s.V := rfl
@[simp] theorem State.setDT_I (s : State) (v : Byte) : (s.setDT v).I = s.I := rfl
@[simp] theorem State.setDT_PC (s : State) (v : Byte) : (s.setDT v).PC = s.PC := rfl
@[simp] theorem State.setDT_S (s : State) (v : Byte) : (s.setDT v).S = s.S := rfl
@[simp] theorem State.setDT_ST (s : State) (v : Byte) : (s.setDT v).ST = s.ST := rfl
@[simp] theorem State.setDT_MEM (s : State) (v : Byte) : (s.setDT v).MEM = s.MEM := rfl
@[simp] theorem State.setDT_DISP (s : State) (v : Byte) : (s.setDT v).DISP = s.DISP := rfl
@[simp] theorem State.setDT_status (s : State) (v : Byte) : (s.setDT v).status = s.status := rfl
@[simp] theorem State.setDT_pending (s : State) (v : Byte) : (s.setDT v).pending = s.pending := rfl
@[simp] theorem State.setDT_drawIndex (s : State) (v : Byte) : (s.setDT v).drawIndex = s.drawIndex := rfl
@[simp] theorem State.setDT_OUT (s : State) (v : Byte) : (s.setDT v).OUT = s.OUT := rfl
@[simp] theorem State.setDT_DT (s : State) (v : Byte) : (s.setDT v).DT = v := rfl
@[simp] theorem State.setDT_reg (s : State) (v : Byte) (r : Reg) : (s.setDT v).reg r = s.reg r := rfl
@[simp] theorem State.setDT_readByte (s : State) (v : Byte) (a : Nat) : (s.setDT v).readByte a = s.readByte a := rfl
@[simp] theorem State.setDT_pixel (s : State) (v : Byte) (cx : Fin 64) (cy : Fin 32) : (s.setDT v).pixel cx cy = s.pixel cx cy := rfl
@[simp] theorem State.setDT_input (s : State) (v : Byte) : (s.setDT v).input = s.input := rfl
@[simp] theorem State.setDT_key (s : State) (v : Byte) (k : Fin 16) : (s.setDT v).key k = s.key k := rfl
@[simp] theorem State.setDT_rnd (s : State) (v : Byte) : (s.setDT v).rnd = s.rnd := rfl
@[simp] theorem State.setDT_tickEn (s : State) (v : Byte) : (s.setDT v).tickEn = s.tickEn := rfl

/-! `setST` -/

@[simp] theorem State.setST_config (s : State) (v : Byte) : (s.setST v).config = s.config := rfl
@[simp] theorem State.setST_V (s : State) (v : Byte) : (s.setST v).V = s.V := rfl
@[simp] theorem State.setST_I (s : State) (v : Byte) : (s.setST v).I = s.I := rfl
@[simp] theorem State.setST_PC (s : State) (v : Byte) : (s.setST v).PC = s.PC := rfl
@[simp] theorem State.setST_S (s : State) (v : Byte) : (s.setST v).S = s.S := rfl
@[simp] theorem State.setST_DT (s : State) (v : Byte) : (s.setST v).DT = s.DT := rfl
@[simp] theorem State.setST_MEM (s : State) (v : Byte) : (s.setST v).MEM = s.MEM := rfl
@[simp] theorem State.setST_DISP (s : State) (v : Byte) : (s.setST v).DISP = s.DISP := rfl
@[simp] theorem State.setST_status (s : State) (v : Byte) : (s.setST v).status = s.status := rfl
@[simp] theorem State.setST_pending (s : State) (v : Byte) : (s.setST v).pending = s.pending := rfl
@[simp] theorem State.setST_drawIndex (s : State) (v : Byte) : (s.setST v).drawIndex = s.drawIndex := rfl
@[simp] theorem State.setST_OUT (s : State) (v : Byte) : (s.setST v).OUT = s.OUT := rfl
@[simp] theorem State.setST_ST (s : State) (v : Byte) : (s.setST v).ST = v := rfl
@[simp] theorem State.setST_reg (s : State) (v : Byte) (r : Reg) : (s.setST v).reg r = s.reg r := rfl
@[simp] theorem State.setST_readByte (s : State) (v : Byte) (a : Nat) : (s.setST v).readByte a = s.readByte a := rfl
@[simp] theorem State.setST_pixel (s : State) (v : Byte) (cx : Fin 64) (cy : Fin 32) : (s.setST v).pixel cx cy = s.pixel cx cy := rfl
@[simp] theorem State.setST_input (s : State) (v : Byte) : (s.setST v).input = s.input := rfl
@[simp] theorem State.setST_key (s : State) (v : Byte) (k : Fin 16) : (s.setST v).key k = s.key k := rfl
@[simp] theorem State.setST_rnd (s : State) (v : Byte) : (s.setST v).rnd = s.rnd := rfl
@[simp] theorem State.setST_tickEn (s : State) (v : Byte) : (s.setST v).tickEn = s.tickEn := rfl

/-! `setStack` -/

@[simp] theorem State.setStack_config (s : State) (l : List Word) : (s.setStack l).config = s.config := rfl
@[simp] theorem State.setStack_V (s : State) (l : List Word) : (s.setStack l).V = s.V := rfl
@[simp] theorem State.setStack_I (s : State) (l : List Word) : (s.setStack l).I = s.I := rfl
@[simp] theorem State.setStack_PC (s : State) (l : List Word) : (s.setStack l).PC = s.PC := rfl
@[simp] theorem State.setStack_DT (s : State) (l : List Word) : (s.setStack l).DT = s.DT := rfl
@[simp] theorem State.setStack_ST (s : State) (l : List Word) : (s.setStack l).ST = s.ST := rfl
@[simp] theorem State.setStack_MEM (s : State) (l : List Word) : (s.setStack l).MEM = s.MEM := rfl
@[simp] theorem State.setStack_DISP (s : State) (l : List Word) : (s.setStack l).DISP = s.DISP := rfl
@[simp] theorem State.setStack_status (s : State) (l : List Word) : (s.setStack l).status = s.status := rfl
@[simp] theorem State.setStack_pending (s : State) (l : List Word) : (s.setStack l).pending = s.pending := rfl
@[simp] theorem State.setStack_drawIndex (s : State) (l : List Word) : (s.setStack l).drawIndex = s.drawIndex := rfl
@[simp] theorem State.setStack_OUT (s : State) (l : List Word) : (s.setStack l).OUT = s.OUT := rfl
@[simp] theorem State.setStack_S (s : State) (l : List Word) : (s.setStack l).S = l := rfl
@[simp] theorem State.setStack_reg (s : State) (l : List Word) (r : Reg) : (s.setStack l).reg r = s.reg r := rfl
@[simp] theorem State.setStack_readByte (s : State) (l : List Word) (a : Nat) : (s.setStack l).readByte a = s.readByte a := rfl
@[simp] theorem State.setStack_pixel (s : State) (l : List Word) (cx : Fin 64) (cy : Fin 32) : (s.setStack l).pixel cx cy = s.pixel cx cy := rfl
@[simp] theorem State.setStack_input (s : State) (l : List Word) : (s.setStack l).input = s.input := rfl
@[simp] theorem State.setStack_key (s : State) (l : List Word) (k : Fin 16) : (s.setStack l).key k = s.key k := rfl
@[simp] theorem State.setStack_rnd (s : State) (l : List Word) : (s.setStack l).rnd = s.rnd := rfl
@[simp] theorem State.setStack_tickEn (s : State) (l : List Word) : (s.setStack l).tickEn = s.tickEn := rfl

/-! `setDisplay` -/

@[simp] theorem State.setDisplay_config (s : State) (d : Display) : (s.setDisplay d).config = s.config := rfl
@[simp] theorem State.setDisplay_V (s : State) (d : Display) : (s.setDisplay d).V = s.V := rfl
@[simp] theorem State.setDisplay_I (s : State) (d : Display) : (s.setDisplay d).I = s.I := rfl
@[simp] theorem State.setDisplay_PC (s : State) (d : Display) : (s.setDisplay d).PC = s.PC := rfl
@[simp] theorem State.setDisplay_S (s : State) (d : Display) : (s.setDisplay d).S = s.S := rfl
@[simp] theorem State.setDisplay_DT (s : State) (d : Display) : (s.setDisplay d).DT = s.DT := rfl
@[simp] theorem State.setDisplay_ST (s : State) (d : Display) : (s.setDisplay d).ST = s.ST := rfl
@[simp] theorem State.setDisplay_MEM (s : State) (d : Display) : (s.setDisplay d).MEM = s.MEM := rfl
@[simp] theorem State.setDisplay_status (s : State) (d : Display) : (s.setDisplay d).status = s.status := rfl
@[simp] theorem State.setDisplay_pending (s : State) (d : Display) : (s.setDisplay d).pending = s.pending := rfl
@[simp] theorem State.setDisplay_drawIndex (s : State) (d : Display) : (s.setDisplay d).drawIndex = s.drawIndex := rfl
@[simp] theorem State.setDisplay_OUT (s : State) (d : Display) : (s.setDisplay d).OUT = s.OUT := rfl
@[simp] theorem State.setDisplay_DISP (s : State) (d : Display) : (s.setDisplay d).DISP = d := rfl
@[simp] theorem State.setDisplay_reg (s : State) (d : Display) (r : Reg) : (s.setDisplay d).reg r = s.reg r := rfl
@[simp] theorem State.setDisplay_readByte (s : State) (d : Display) (a : Nat) : (s.setDisplay d).readByte a = s.readByte a := rfl
@[simp] theorem State.setDisplay_input (s : State) (d : Display) : (s.setDisplay d).input = s.input := rfl
@[simp] theorem State.setDisplay_key (s : State) (d : Display) (k : Fin 16) : (s.setDisplay d).key k = s.key k := rfl
@[simp] theorem State.setDisplay_rnd (s : State) (d : Display) : (s.setDisplay d).rnd = s.rnd := rfl
@[simp] theorem State.setDisplay_tickEn (s : State) (d : Display) : (s.setDisplay d).tickEn = s.tickEn := rfl

/-! `setOutput` -/

@[simp] theorem State.setOutput_config (s : State) (o : StepOutput) : (s.setOutput o).config = s.config := rfl
@[simp] theorem State.setOutput_V (s : State) (o : StepOutput) : (s.setOutput o).V = s.V := rfl
@[simp] theorem State.setOutput_I (s : State) (o : StepOutput) : (s.setOutput o).I = s.I := rfl
@[simp] theorem State.setOutput_PC (s : State) (o : StepOutput) : (s.setOutput o).PC = s.PC := rfl
@[simp] theorem State.setOutput_S (s : State) (o : StepOutput) : (s.setOutput o).S = s.S := rfl
@[simp] theorem State.setOutput_DT (s : State) (o : StepOutput) : (s.setOutput o).DT = s.DT := rfl
@[simp] theorem State.setOutput_ST (s : State) (o : StepOutput) : (s.setOutput o).ST = s.ST := rfl
@[simp] theorem State.setOutput_MEM (s : State) (o : StepOutput) : (s.setOutput o).MEM = s.MEM := rfl
@[simp] theorem State.setOutput_DISP (s : State) (o : StepOutput) : (s.setOutput o).DISP = s.DISP := rfl
@[simp] theorem State.setOutput_status (s : State) (o : StepOutput) : (s.setOutput o).status = s.status := rfl
@[simp] theorem State.setOutput_pending (s : State) (o : StepOutput) : (s.setOutput o).pending = s.pending := rfl
@[simp] theorem State.setOutput_drawIndex (s : State) (o : StepOutput) : (s.setOutput o).drawIndex = s.drawIndex := rfl
@[simp] theorem State.setOutput_OUT (s : State) (o : StepOutput) : (s.setOutput o).OUT = o := rfl
@[simp] theorem State.setOutput_reg (s : State) (o : StepOutput) (r : Reg) : (s.setOutput o).reg r = s.reg r := rfl
@[simp] theorem State.setOutput_readByte (s : State) (o : StepOutput) (a : Nat) : (s.setOutput o).readByte a = s.readByte a := rfl
@[simp] theorem State.setOutput_pixel (s : State) (o : StepOutput) (cx : Fin 64) (cy : Fin 32) : (s.setOutput o).pixel cx cy = s.pixel cx cy := rfl
@[simp] theorem State.setOutput_input (s : State) (o : StepOutput) : (s.setOutput o).input = s.input := rfl
@[simp] theorem State.setOutput_key (s : State) (o : StepOutput) (k : Fin 16) : (s.setOutput o).key k = s.key k := rfl
@[simp] theorem State.setOutput_rnd (s : State) (o : StepOutput) : (s.setOutput o).rnd = s.rnd := rfl
@[simp] theorem State.setOutput_tickEn (s : State) (o : StepOutput) : (s.setOutput o).tickEn = s.tickEn := rfl

/-! `writeByte` -/

@[simp] theorem State.writeByte_config (s : State) (b : Nat) (x : Byte) : (s.writeByte b x).config = s.config := rfl
@[simp] theorem State.writeByte_V (s : State) (b : Nat) (x : Byte) : (s.writeByte b x).V = s.V := rfl
@[simp] theorem State.writeByte_I (s : State) (b : Nat) (x : Byte) : (s.writeByte b x).I = s.I := rfl
@[simp] theorem State.writeByte_PC (s : State) (b : Nat) (x : Byte) : (s.writeByte b x).PC = s.PC := rfl
@[simp] theorem State.writeByte_S (s : State) (b : Nat) (x : Byte) : (s.writeByte b x).S = s.S := rfl
@[simp] theorem State.writeByte_DT (s : State) (b : Nat) (x : Byte) : (s.writeByte b x).DT = s.DT := rfl
@[simp] theorem State.writeByte_ST (s : State) (b : Nat) (x : Byte) : (s.writeByte b x).ST = s.ST := rfl
@[simp] theorem State.writeByte_DISP (s : State) (b : Nat) (x : Byte) : (s.writeByte b x).DISP = s.DISP := rfl
@[simp] theorem State.writeByte_status (s : State) (b : Nat) (x : Byte) : (s.writeByte b x).status = s.status := rfl
@[simp] theorem State.writeByte_pending (s : State) (b : Nat) (x : Byte) : (s.writeByte b x).pending = s.pending := rfl
@[simp] theorem State.writeByte_drawIndex (s : State) (b : Nat) (x : Byte) : (s.writeByte b x).drawIndex = s.drawIndex := rfl
@[simp] theorem State.writeByte_OUT (s : State) (b : Nat) (x : Byte) : (s.writeByte b x).OUT = s.OUT := rfl
@[simp] theorem State.writeByte_reg (s : State) (b : Nat) (x : Byte) (r : Reg) : (s.writeByte b x).reg r = s.reg r := rfl
@[simp] theorem State.writeByte_pixel (s : State) (b : Nat) (x : Byte) (cx : Fin 64) (cy : Fin 32) : (s.writeByte b x).pixel cx cy = s.pixel cx cy := rfl
@[simp] theorem State.writeByte_input (s : State) (b : Nat) (x : Byte) : (s.writeByte b x).input = s.input := rfl
@[simp] theorem State.writeByte_key (s : State) (b : Nat) (x : Byte) (k : Fin 16) : (s.writeByte b x).key k = s.key k := rfl
@[simp] theorem State.writeByte_rnd (s : State) (b : Nat) (x : Byte) : (s.writeByte b x).rnd = s.rnd := rfl
@[simp] theorem State.writeByte_tickEn (s : State) (b : Nat) (x : Byte) : (s.writeByte b x).tickEn = s.tickEn := rfl

/-! `enterFaulted` -/

@[simp] theorem State.enterFaulted_config (s : State) (f : Fault) : (s.enterFaulted f).config = s.config := rfl
@[simp] theorem State.enterFaulted_V (s : State) (f : Fault) : (s.enterFaulted f).V = s.V := rfl
@[simp] theorem State.enterFaulted_I (s : State) (f : Fault) : (s.enterFaulted f).I = s.I := rfl
@[simp] theorem State.enterFaulted_PC (s : State) (f : Fault) : (s.enterFaulted f).PC = s.PC := rfl
@[simp] theorem State.enterFaulted_S (s : State) (f : Fault) : (s.enterFaulted f).S = s.S := rfl
@[simp] theorem State.enterFaulted_DT (s : State) (f : Fault) : (s.enterFaulted f).DT = s.DT := rfl
@[simp] theorem State.enterFaulted_ST (s : State) (f : Fault) : (s.enterFaulted f).ST = s.ST := rfl
@[simp] theorem State.enterFaulted_MEM (s : State) (f : Fault) : (s.enterFaulted f).MEM = s.MEM := rfl
@[simp] theorem State.enterFaulted_DISP (s : State) (f : Fault) : (s.enterFaulted f).DISP = s.DISP := rfl
@[simp] theorem State.enterFaulted_pending (s : State) (f : Fault) : (s.enterFaulted f).pending = s.pending := rfl
@[simp] theorem State.enterFaulted_drawIndex (s : State) (f : Fault) : (s.enterFaulted f).drawIndex = s.drawIndex := rfl
@[simp] theorem State.enterFaulted_OUT (s : State) (f : Fault) : (s.enterFaulted f).OUT = s.OUT := rfl
@[simp] theorem State.enterFaulted_status (s : State) (f : Fault) : (s.enterFaulted f).status = .faulted f.record := rfl
@[simp] theorem State.enterFaulted_reg (s : State) (f : Fault) (r : Reg) : (s.enterFaulted f).reg r = s.reg r := rfl
@[simp] theorem State.enterFaulted_readByte (s : State) (f : Fault) (a : Nat) : (s.enterFaulted f).readByte a = s.readByte a := rfl
@[simp] theorem State.enterFaulted_pixel (s : State) (f : Fault) (cx : Fin 64) (cy : Fin 32) : (s.enterFaulted f).pixel cx cy = s.pixel cx cy := rfl
@[simp] theorem State.enterFaulted_input (s : State) (f : Fault) : (s.enterFaulted f).input = s.input := rfl
@[simp] theorem State.enterFaulted_key (s : State) (f : Fault) (k : Fin 16) : (s.enterFaulted f).key k = s.key k := rfl
@[simp] theorem State.enterFaulted_rnd (s : State) (f : Fault) : (s.enterFaulted f).rnd = s.rnd := rfl
@[simp] theorem State.enterFaulted_tickEn (s : State) (f : Fault) : (s.enterFaulted f).tickEn = s.tickEn := rfl

/-! `offerInput` -/

@[simp] theorem State.offerInput_config (s : State) (i : StepInput) : (s.offerInput i).config = s.config := rfl
@[simp] theorem State.offerInput_V (s : State) (i : StepInput) : (s.offerInput i).V = s.V := rfl
@[simp] theorem State.offerInput_I (s : State) (i : StepInput) : (s.offerInput i).I = s.I := rfl
@[simp] theorem State.offerInput_PC (s : State) (i : StepInput) : (s.offerInput i).PC = s.PC := rfl
@[simp] theorem State.offerInput_S (s : State) (i : StepInput) : (s.offerInput i).S = s.S := rfl
@[simp] theorem State.offerInput_DT (s : State) (i : StepInput) : (s.offerInput i).DT = s.DT := rfl
@[simp] theorem State.offerInput_ST (s : State) (i : StepInput) : (s.offerInput i).ST = s.ST := rfl
@[simp] theorem State.offerInput_MEM (s : State) (i : StepInput) : (s.offerInput i).MEM = s.MEM := rfl
@[simp] theorem State.offerInput_DISP (s : State) (i : StepInput) : (s.offerInput i).DISP = s.DISP := rfl
@[simp] theorem State.offerInput_status (s : State) (i : StepInput) : (s.offerInput i).status = s.status := rfl
@[simp] theorem State.offerInput_drawIndex (s : State) (i : StepInput) : (s.offerInput i).drawIndex = s.drawIndex := rfl
@[simp] theorem State.offerInput_OUT (s : State) (i : StepInput) : (s.offerInput i).OUT = s.OUT := rfl
@[simp] theorem State.offerInput_reg (s : State) (i : StepInput) (r : Reg) : (s.offerInput i).reg r = s.reg r := rfl
@[simp] theorem State.offerInput_readByte (s : State) (i : StepInput) (a : Nat) : (s.offerInput i).readByte a = s.readByte a := rfl
@[simp] theorem State.offerInput_pixel (s : State) (i : StepInput) (cx : Fin 64) (cy : Fin 32) : (s.offerInput i).pixel cx cy = s.pixel cx cy := rfl

/-! `resetWith` (R26, R190) -/

@[simp] theorem State.resetWith_config (c : Config) : (State.resetWith c).config = c := rfl
@[simp] theorem State.resetWith_I (c : Config) : (State.resetWith c).I = 0 := rfl
@[simp] theorem State.resetWith_PC (c : Config) : (State.resetWith c).PC = resetPC := rfl
@[simp] theorem State.resetWith_S (c : Config) : (State.resetWith c).S = [] := rfl
@[simp] theorem State.resetWith_DT (c : Config) : (State.resetWith c).DT = 0 := rfl
@[simp] theorem State.resetWith_ST (c : Config) : (State.resetWith c).ST = 0 := rfl
@[simp] theorem State.resetWith_MEM (c : Config) : (State.resetWith c).MEM = [] := rfl
@[simp] theorem State.resetWith_status (c : Config) : (State.resetWith c).status = .running := rfl
@[simp] theorem State.resetWith_pending (c : Config) : (State.resetWith c).pending = [] := rfl
@[simp] theorem State.resetWith_drawIndex (c : Config) : (State.resetWith c).drawIndex = 0 := rfl
@[simp] theorem State.resetWith_OUT (c : Config) : (State.resetWith c).OUT = .quiet := rfl

/-! A register, and the display, after a write -/

theorem State.reg_setReg (s : State) (q r : Reg) (v : Byte) : (s.setReg q v).reg r = if q = r then v else s.reg r := by
  simp [State.reg, State.setReg, Vector.getElem_set, Fin.ext_iff]

@[simp] theorem State.reg_setReg_same (s : State) (q : Reg) (v : Byte) : (s.setReg q v).reg q = v := by
  simp [State.reg_setReg]

@[simp] theorem State.reg_setReg_ne (s : State) (q r : Reg) (v : Byte) (h : q ≠ r) :
    (s.setReg q v).reg r = s.reg r := by
  simp [State.reg_setReg, h]

theorem State.reg_setVF (s : State) (b : Bool) (r : Reg) :
    (s.setVF b).reg r = if regVF = r then flagByte b else s.reg r :=
  State.reg_setReg s regVF r (flagByte b)

@[simp] theorem State.reg_setVF_same (s : State) (b : Bool) : (s.setVF b).reg regVF = flagByte b := by
  simp [State.reg_setVF]

@[simp] theorem State.setDisplay_pixel (s : State) (d : Display) (cx : Fin 64) (cy : Fin 32) :
    (s.setDisplay d).pixel cx cy = Display.lit d cx cy := rfl

/-! Reset reads as R26 says -/

@[simp] theorem State.resetWith_reg (c : Config) (r : Reg) : (State.resetWith c).reg r = 0 := by
  simp [State.reg, State.resetWith]

@[simp] theorem State.resetWith_pixel (c : Config) (cx : Fin 64) (cy : Fin 32) :
    (State.resetWith c).pixel cx cy = false := by
  simp [State.pixel, Display.lit, State.resetWith]

@[simp] theorem State.resetWith_readByte (c : Config) (a : Nat) : (State.resetWith c).readByte a = resetByte c a := rfl

/-! `reapplyReset` (R190): as `resetWith`, but for the host's inputs -/

@[simp] theorem State.reapplyReset_config (s : State) : s.reapplyReset.config = s.config := rfl
@[simp] theorem State.reapplyReset_I (s : State) : s.reapplyReset.I = 0 := rfl
@[simp] theorem State.reapplyReset_PC (s : State) : s.reapplyReset.PC = resetPC := rfl
@[simp] theorem State.reapplyReset_S (s : State) : s.reapplyReset.S = [] := rfl
@[simp] theorem State.reapplyReset_DT (s : State) : s.reapplyReset.DT = 0 := rfl
@[simp] theorem State.reapplyReset_ST (s : State) : s.reapplyReset.ST = 0 := rfl
@[simp] theorem State.reapplyReset_MEM (s : State) : s.reapplyReset.MEM = [] := rfl
@[simp] theorem State.reapplyReset_status (s : State) : s.reapplyReset.status = .running := rfl
@[simp] theorem State.reapplyReset_pending (s : State) : s.reapplyReset.pending = s.pending := rfl
@[simp] theorem State.reapplyReset_drawIndex (s : State) : s.reapplyReset.drawIndex = s.drawIndex := rfl
@[simp] theorem State.reapplyReset_OUT (s : State) : s.reapplyReset.OUT = .quiet := rfl
@[simp] theorem State.reapplyReset_reg (s : State) (r : Reg) : s.reapplyReset.reg r = 0 := State.resetWith_reg s.config r
@[simp] theorem State.reapplyReset_pixel (s : State) (cx : Fin 64) (cy : Fin 32) : s.reapplyReset.pixel cx cy = false :=
  State.resetWith_pixel s.config cx cy
@[simp] theorem State.reapplyReset_readByte (s : State) (a : Nat) : s.reapplyReset.readByte a = resetByte s.config a := rfl

/-! The inputs -/

@[simp] theorem State.offerInput_input (s : State) (i : StepInput) : (s.offerInput i).input = i := rfl

theorem State.input_eq_inputAt (s : State) : s.input = s.inputAt 0 := by
  cases h : s.pending <;> simp [State.input, State.inputAt, h]

end Sys2Proof.Machine
end

