-- ==== Sys2Proof/Laws/Memory.lean ====
section
/-! SUPPORT. Memory: a read after a write, the canonical form kept by every memory operation, and what the multi-byte
operations do (20_memory.md R31, R34, R36, R40). -/

namespace Sys2Proof.Machine

/-! ### The list -/

theorem Memory.entry_erase (m : Memory) (a b : Nat) :
    Memory.entry (Memory.erase m a) b = if b = a then none else Memory.entry m b := by
  induction m with
  | nil => simp [Memory.erase, Memory.entry]
  | cons e rest ih =>
    obtain ⟨c, v⟩ := e
    by_cases hca : c = a <;> by_cases hba : b = a <;> simp_all [Memory.erase, Memory.entry]
    intro h
    exact absurd h.symm hba

theorem Memory.entry_insert (m : Memory) (a b : Nat) (x : Byte) :
    Memory.entry (Memory.insert m a x) b = if b = a then some x else Memory.entry m b := by
  induction m with
  | nil => simp [Memory.insert, Memory.entry, eq_comm]
  | cons e rest ih =>
    obtain ⟨c, v⟩ := e
    unfold Memory.insert
    split
    · simp [Memory.entry, eq_comm]
    · split
      · subst_vars
        by_cases h : b = c <;> simp_all [Memory.entry, eq_comm]
      · by_cases h : b = a <;> simp_all [Memory.entry, eq_comm]

/-- A read after a write: the address written gives the value written, every other address what it gave before (R31). -/
theorem Memory.read_write (c : Config) (m : Memory) (a b : Nat) (x : Byte) :
    Memory.read c (Memory.write c m a x) b = if b = a then x else Memory.read c m b := by
  unfold Memory.read Memory.write
  split
  · by_cases h : b = a <;> simp_all [Memory.entry_erase]
  · by_cases h : b = a <;> simp_all [Memory.entry_insert]

theorem Memory.mem_erase {m : Memory} {a : Nat} {e : Host.Cell} (h : e ∈ Memory.erase m a) : e ∈ m := by
  induction m with
  | nil => simp [Memory.erase] at h
  | cons f rest ih =>
    obtain ⟨c, v⟩ := f
    unfold Memory.erase at h
    split at h
    · exact List.mem_cons_of_mem _ (ih h)
    · rcases List.mem_cons.1 h with h | h
      · simp [h]
      · exact List.mem_cons_of_mem _ (ih h)

theorem Memory.mem_insert {m : Memory} {a : Nat} {x : Byte} {e : Host.Cell} (h : e ∈ Memory.insert m a x) :
    e = (a, x) ∨ e ∈ m := by
  induction m with
  | nil => simpa [Memory.insert] using h
  | cons f rest ih =>
    obtain ⟨c, v⟩ := f
    unfold Memory.insert at h
    split at h
    · simpa using h
    · split at h
      · rcases List.mem_cons.1 h with h | h
        · exact .inl h
        · exact .inr (List.mem_cons_of_mem _ h)
      · rcases List.mem_cons.1 h with h | h
        · exact .inr (by simp [h])
        · exact (ih h).imp id (List.mem_cons_of_mem _)

theorem Memory.erase_sorted {m : Memory} (a : Nat) (h : m.Pairwise (fun p q => p.1 < q.1)) :
    (Memory.erase m a).Pairwise (fun p q => p.1 < q.1) := by
  induction m with
  | nil => exact h
  | cons e rest ih =>
    obtain ⟨c, v⟩ := e
    obtain ⟨h1, h2⟩ := List.pairwise_cons.1 h
    unfold Memory.erase
    split
    · exact ih h2
    · exact List.pairwise_cons.2 ⟨fun e he => h1 e (Memory.mem_erase he), ih h2⟩

theorem Memory.insert_sorted {m : Memory} (a : Nat) (x : Byte) (h : m.Pairwise (fun p q => p.1 < q.1)) :
    (Memory.insert m a x).Pairwise (fun p q => p.1 < q.1) := by
  induction m with
  | nil => simp [Memory.insert]
  | cons e rest ih =>
    obtain ⟨c, v⟩ := e
    obtain ⟨h1, h2⟩ := List.pairwise_cons.1 h
    unfold Memory.insert
    split
    · rename_i hac
      refine List.pairwise_cons.2 ⟨fun e he => ?_, h⟩
      rcases List.mem_cons.1 he with he | he
      · simpa [he] using hac
      · exact Nat.lt_trans hac (h1 e he)
    · split
      · rename_i hac
        subst hac
        exact List.pairwise_cons.2 ⟨h1, h2⟩
      · refine List.pairwise_cons.2 ⟨fun e he => ?_, ih h2⟩
        rcases Memory.mem_insert he with he | he
        · subst he; simp only; omega
        · exact h1 e he

/-- A write to a valid address keeps the canonical form. -/
theorem Memory.write_wf {c : Config} {m : Memory} {a : Nat} (x : Byte) (ha : a < memSize) (h : Memory.wf c m) :
    Memory.wf c (Memory.write c m a x) := by
  unfold Memory.write
  split
  · exact ⟨Memory.erase_sorted a h.1, fun e he => h.2 e (Memory.mem_erase he)⟩
  · rename_i hx
    refine ⟨Memory.insert_sorted a x h.1, fun e he => ?_⟩
    rcases Memory.mem_insert he with he | he
    · subst he; exact ⟨ha, hx⟩
    · exact h.2 e he

/-! ### One byte of the state -/

theorem State.readByte_writeByte (s : State) (a b : Nat) (x : Byte) :
    (s.writeByte a x).readByte b = if b = a then x else s.readByte b :=
  Memory.read_write s.config s.MEM a b x

theorem State.writeByte_wf {s : State} {a : Nat} (x : Byte) (ha : a < memSize) (h : Memory.wf s.config s.MEM) :
    Memory.wf (s.writeByte a x).config (s.writeByte a x).MEM :=
  Memory.write_wf x ha h

/-- `MemRead` answers the byte exactly at a valid address (R31). -/
theorem memRead_ok_iff {s : State} {a : Nat} {v : Byte} : memRead s a = .ok v ↔ a < memSize ∧ v = s.readByte a := by
  unfold memRead
  split <;> simp_all [eq_comm]

theorem memRead_error_iff {s : State} {a e : Nat} : memRead s a = .error e ↔ memSize ≤ a ∧ e = a := by
  unfold memRead
  split <;> simp_all [eq_comm]

/-- `MemWrite` answers the changed state exactly at a valid address (R31). -/
theorem memWrite_ok_iff {s t : State} {a : Nat} {x : Byte} :
    memWrite s a x = .ok t ↔ a < memSize ∧ t = s.writeByte a x := by
  unfold memWrite
  split <;> simp_all [eq_comm]

theorem memWrite_error_iff {s : State} {a e : Nat} {x : Byte} :
    memWrite s a x = .error e ↔ memSize ≤ a ∧ e = a := by
  unfold memWrite
  split <;> simp_all [eq_comm]

/-! ### Several bytes -/

/-- A write of bytes changes memory only. -/
theorem State.writeBytes_frame (xs : List Byte) : ∀ (s : State) (a : Nat),
    s.writeBytes a xs = { s with MEM := (s.writeBytes a xs).MEM } := by
  induction xs with
  | nil => intro s a; rfl
  | cons x xs ih => intro s a; exact ih (s.writeByte a x) (a + 1)

/-- Each byte stands at its address, and every other address reads as before. -/
theorem State.readByte_writeBytes (xs : List Byte) : ∀ (s : State) (a b : Nat),
    (s.writeBytes a xs).readByte b = if a ≤ b then (xs[b - a]?).getD (s.readByte b) else s.readByte b := by
  induction xs with
  | nil => intro s a b; simp [State.writeBytes]
  | cons x xs ih =>
    intro s a b
    rw [State.writeBytes, ih, State.readByte_writeByte]
    by_cases h1 : a + 1 ≤ b
    · have h2 : a ≤ b := by omega
      have h3 : ¬ b = a := by omega
      have h4 : b - a = (b - (a + 1)) + 1 := by omega
      simp [h1, h2, h3, h4]
    · by_cases h2 : b = a
      · subst h2; simp
      · have h3 : ¬ a ≤ b := by omega
        simp [h1, h2, h3]

theorem State.writeBytes_wf (xs : List Byte) : ∀ (s : State) (a : Nat), a + xs.length ≤ memSize →
    Memory.wf s.config s.MEM → Memory.wf (s.writeBytes a xs).config (s.writeBytes a xs).MEM := by
  induction xs with
  | nil => intro s a _ h; exact h
  | cons x xs ih =>
    intro s a hl h
    simp only [List.length_cons] at hl
    exact ih (s.writeByte a x) (a + 1) (by omega) (State.writeByte_wf x (by omega) h)

/-- A store of bytes is the write of them when every address is valid, and otherwise the first invalid address (R166). -/
theorem storeBytes_eq (xs : List Byte) : ∀ (s : State) (a : Nat), storeBytes s a xs =
    if xs = [] ∨ a + xs.length ≤ memSize then .ok (s.writeBytes a xs) else .error (max a memSize) := by
  induction xs with
  | nil => intro s a; simp [storeBytes, State.writeBytes]
  | cons x xs ih =>
    intro s a
    unfold storeBytes memWrite
    by_cases ha : a < memSize
    · simp only [ha, if_true, ih]
      by_cases hx : xs = []
      · subst hx
        have : a + 1 ≤ memSize := ha
        simp [this, State.writeBytes]
      · have hl : 0 < xs.length := List.length_pos_iff.2 hx
        simp only [hx, false_or, List.length_cons, reduceCtorEq, State.writeBytes]
        by_cases h : a + 1 + xs.length ≤ memSize
        · have h' : a + (xs.length + 1) ≤ memSize := by omega
          simp [h, h']
        · have h' : ¬ a + (xs.length + 1) ≤ memSize := by omega
          have h2 : max (a + 1) memSize = max a memSize := by omega
          simp [h, h', h2]
    · have h' : ¬ a + (xs.length + 1) ≤ memSize := by omega
      have h2 : max a memSize = a := by omega
      simp [ha, h', h2]

end Sys2Proof.Machine
end

