-- ==== Sys2Proof/Laws/Display.lean ====
section
/-! SUPPORT. The display (10_state.md R18, R72) and the sprite draw (44_display.md R136, R137): what each drawing operation does
to every pixel and to the collision. -/

namespace Sys2Proof.Machine

/-! ### Pixels -/

theorem Display.lit_put (d : Display) (cx ex : Fin 64) (cy ey : Fin 32) (b : Bool) :
    Display.lit (Display.put d cx cy b) ex ey = if cx = ex ∧ cy = ey then b else Display.lit d ex ey := by
  unfold Display.lit Display.put
  rw [Vector.getElem_set]
  by_cases hx : cx.val = ex.val
  · have hx' : cx = ex := Fin.ext hx
    subst hx'
    by_cases hy : cy.val = ey.val
    · simp [Fin.ext_iff, hy]
    · simp [Fin.ext_iff, hy]
  · simp [Fin.ext_iff, hx]

@[simp] theorem Display.lit_clear (cx : Fin 64) (cy : Fin 32) : Display.lit Display.clear cx cy = false := by
  simp [Display.lit, Display.clear]

/-- Two displays with the same pixels are the same. -/
theorem Display.ext_lit {d e : Display} (h : ∀ cx cy, Display.lit d cx cy = Display.lit e cx cy) : d = e := by
  refine Vector.ext fun i hi => Vector.ext fun j hj => ?_
  exact h ⟨i, hi⟩ ⟨j, hj⟩

/-- Displays differ exactly when a pixel differs (R72). -/
theorem Display.differs_iff (d e : Display) :
    Display.differs d e = true ↔ ∃ cx cy, Display.lit e cx cy ≠ Display.lit d cx cy := by
  have h : (d.toList.map Vector.toList = e.toList.map Vector.toList) ↔ d = e := by
    refine ⟨fun h => ?_, fun h => by rw [h]⟩
    have hinj : Function.Injective (Vector.toList : Vector Bool 32 → List Bool) :=
      fun a b hab => Vector.toList_inj.1 hab
    exact Vector.toList_inj.1 (List.map_injective_iff.2 hinj h)
  simp only [Display.differs, bne_iff_ne, ne_eq, h]
  constructor
  · intro hne
    by_contra hall
    push Not at hall
    exact hne (Display.ext_lit fun cx cy => (hall cx cy).symm)
  · rintro ⟨cx, cy, hp⟩ rfl
    exact hp rfl

/-! ### One sprite pixel -/

theorem lit_drawPixel (g : Drawing) (cx ex : Fin 64) (cy ey : Fin 32) :
    Display.lit (drawPixel g cx cy).disp ex ey =
      (Display.lit g.disp ex ey ^^ decide (cx = ex ∧ cy = ey)) := by
  unfold drawPixel
  split <;> rename_i h <;> simp only [Display.lit_put] <;> split <;> rename_i he
  · obtain ⟨rfl, rfl⟩ := he; simp [h]
  · simp [he]
  · obtain ⟨rfl, rfl⟩ := he; simp [h]
  · simp [he]

theorem hit_drawPixel (g : Drawing) (cx : Fin 64) (cy : Fin 32) :
    (drawPixel g cx cy).hit = (g.hit || Display.lit g.disp cx cy) := by
  unfold drawPixel
  split <;> simp_all

/-! ### One row of a sprite -/

/-- After `count` columns from column `j`: a pixel of the row flips exactly where it lies under one of those columns and the
sprite bit is 1 (R136, R137). -/
theorem lit_drawColumns (b : Byte) (x0 : Nat) (cy ey : Fin 32) (ex : Fin 64) :
    ∀ (count j : Nat) (g : Drawing), Display.lit (drawColumns b x0 cy count j g).disp ex ey =
      (Display.lit g.disp ex ey ^^
        (decide (cy = ey ∧ x0 + j ≤ ex.val ∧ ex.val < x0 + j + count) && spriteBit b (ex.val - x0))) := by
  intro count
  induction count with
  | zero =>
    intro j g
    have h : ¬ (x0 + j ≤ ex.val ∧ ex.val < x0 + j + 0) := by omega
    simp only [drawColumns, h, and_false, decide_false, Bool.false_and, Bool.xor_false]
  | succ count ih =>
    intro j g
    unfold drawColumns
    split
    · rename_i hx
      rw [ih]
      by_cases hy : cy = ey
      · subst hy
        by_cases he : ex.val = x0 + j
        · have h1 : ex.val - x0 = j := by omega
          have h2 : ¬ x0 + (j + 1) ≤ ex.val := by omega
          have h3 : (⟨x0 + j, hx⟩ : Fin 64) = ex := Fin.ext he.symm
          cases hb : spriteBit b j <;> simp [lit_drawPixel, he, hb, h3]
        · have h3 : ¬ (⟨x0 + j, hx⟩ : Fin 64) = ex := fun h => he (congrArg Fin.val h).symm
          have h4 : (x0 + (j + 1) ≤ ex.val ∧ ex.val < x0 + (j + 1) + count) ↔
              (x0 + j ≤ ex.val ∧ ex.val < x0 + j + (count + 1)) := by omega
          cases hb : spriteBit b j <;> simp [lit_drawPixel, h3, h4]
      · cases hb : spriteBit b j <;> simp [lit_drawPixel, hy]
    · rename_i hx
      have : ¬ (x0 + j ≤ ex.val) := by omega
      simp [this]

/-- The row collides exactly where a flipped pixel was lit (R136). -/
theorem hit_drawColumns (b : Byte) (x0 : Nat) (cy : Fin 32) : ∀ (count j : Nat) (g : Drawing),
    (drawColumns b x0 cy count j g).hit = true ↔ g.hit = true ∨ ∃ ex : Fin 64,
      x0 + j ≤ ex.val ∧ ex.val < x0 + j + count ∧ spriteBit b (ex.val - x0) = true ∧ Display.lit g.disp ex cy = true := by
  intro count
  induction count with
  | zero => intro j g; simp only [drawColumns]; constructor
            · exact .inl
            · rintro (h | ⟨ex, h1, h2, -⟩)
              · exact h
              · omega
  | succ count ih =>
    intro j g
    unfold drawColumns
    split
    · rename_i hx
      rw [ih]
      have hstep : (if spriteBit b j then drawPixel g ⟨x0 + j, hx⟩ cy else g).hit = true ↔
          g.hit = true ∨ (spriteBit b j = true ∧ Display.lit g.disp ⟨x0 + j, hx⟩ cy = true) := by
        cases hb : spriteBit b j <;> simp [hit_drawPixel]
      have hlit : ∀ ex : Fin 64, x0 + (j + 1) ≤ ex.val →
          Display.lit (if spriteBit b j then drawPixel g ⟨x0 + j, hx⟩ cy else g).disp ex cy =
            Display.lit g.disp ex cy := by
        intro ex he
        have : ¬ (⟨x0 + j, hx⟩ : Fin 64) = ex := fun h => by
          have := congrArg Fin.val h
          simp only at this
          omega
        cases hb : spriteBit b j <;> simp [lit_drawPixel, this]
      rw [hstep]
      constructor
      · rintro ((h | ⟨h1, h2⟩) | ⟨ex, h1, h2, h3, h4⟩)
        · exact .inl h
        · exact .inr ⟨⟨x0 + j, hx⟩, by simp, by simp, by simpa using h1, h2⟩
        · exact .inr ⟨ex, by omega, by omega, h3, (hlit ex h1) ▸ h4⟩
      · rintro (h | ⟨ex, h1, h2, h3, h4⟩)
        · exact .inl (.inl h)
        · by_cases he : ex.val = x0 + j
          · have hex : ex = ⟨x0 + j, hx⟩ := Fin.ext he
            refine .inl (.inr ⟨?_, hex ▸ h4⟩)
            rwa [he, Nat.add_sub_cancel_left] at h3
          · exact .inr ⟨ex, by omega, by omega, h3, (hlit ex (by omega)).symm ▸ h4⟩
    · rename_i hx
      constructor
      · exact .inl
      · rintro (h | ⟨ex, h1, -⟩)
        · exact h
        · have := ex.isLt; omega

/-! ### The rows -/

/-- The rows are all read, and the draw completes, exactly when the last row read is in memory: row `n - 1`, or the first row
off the screen if that comes before; otherwise the first invalid address is reported (R136, R166). -/
theorem drawRows_completes (s : State) (x0 y0 : Nat) : ∀ (count i : Nat) (g : Drawing), y0 + i ≤ 32 →
    (count = 0 ∨ effectiveAddress s (min (i + count - 1) (32 - y0)) < memSize →
      ∃ h, drawRows s x0 y0 count i g = .ok h) ∧
    (¬ (count = 0 ∨ effectiveAddress s (min (i + count - 1) (32 - y0)) < memSize) →
      drawRows s x0 y0 count i g = .error (max (effectiveAddress s i) memSize)) := by
  intro count
  induction count with
  | zero => intro i g _; simp [drawRows]
  | succ count ih =>
    intro i g hi
    unfold drawRows
    by_cases ha : effectiveAddress s i < memSize
    · simp only [memRead, ha, if_true]
      by_cases hy : y0 + i < 32
      · simp only [hy, dif_pos]
        have key := ih (i + 1) (drawColumns (s.readByte (effectiveAddress s i)) x0 ⟨y0 + i, hy⟩ 8 0 g) (by omega)
        by_cases hc : count = 0
        · subst hc
          refine ⟨fun _ => key.1 (.inl rfl), fun h => absurd (.inr ?_) h⟩
          have : min (i + (0 + 1) - 1) (32 - y0) = i := by omega
          rwa [this]
        · have h1 : i + 1 + count - 1 = i + (count + 1) - 1 := by omega
          have h2 : max (effectiveAddress s (i + 1)) memSize = max (effectiveAddress s i) memSize := by
            unfold effectiveAddress at *; omega
          rw [h1, h2] at key
          simp only [hc, false_or] at key
          exact ⟨fun h => key.1 (h.resolve_left (by omega)), fun h => key.2 fun h' => h (.inr h')⟩
      · simp only [hy, dif_neg, not_false_eq_true]
        refine ⟨fun _ => ⟨g, rfl⟩, fun h => absurd (.inr ?_) h⟩
        have : min (i + (count + 1) - 1) (32 - y0) = i := by omega
        rwa [this]
    · have h2 : max (effectiveAddress s i) memSize = effectiveAddress s i := by omega
      have h3 : effectiveAddress s i ≤ effectiveAddress s (min (i + (count + 1) - 1) (32 - y0)) := by
        unfold effectiveAddress; omega
      simp only [memRead, ha, if_false, h2, implies_true, and_true]
      intro h
      rcases h with h | h <;> omega

/-- What the rows from row `i` on do to every pixel: it flips exactly where one of those rows has a 1 for it (R136, R137). -/
theorem lit_drawRows (s : State) (x0 y0 : Nat) (ex : Fin 64) (ey : Fin 32) :
    ∀ (count i : Nat) (g h : Drawing), drawRows s x0 y0 count i g = .ok h →
      Display.lit h.disp ex ey = (Display.lit g.disp ex ey ^^
        (decide (y0 + i ≤ ey.val) && spritePixel s x0 y0 (i + count) ex ey)) := by
  intro count
  induction count with
  | zero =>
    intro i g h hok
    simp only [drawRows, Except.ok.injEq] at hok
    subst hok
    by_cases h1 : y0 + i ≤ ey.val
    · have : ¬ ey.val < y0 + i := by omega
      simp [spritePixel, this]
    · simp [h1]
  | succ count ih =>
    intro i g h hok
    unfold drawRows memRead at hok
    split at hok
    · cases hok
    · rename_i b hb
      split at hb
      · injection hb with hb
        subst hb
        split at hok
        · rename_i hy
          rw [ih _ _ _ hok, lit_drawColumns]
          have hcount : i + 1 + count = i + (count + 1) := by omega
          rw [hcount]
          by_cases he : ey.val = y0 + i
          · have h1 : (⟨y0 + i, hy⟩ : Fin 32) = ey := Fin.ext he.symm
            have h2 : ¬ y0 + (i + 1) ≤ ey.val := by omega
            have h3 : ey.val - y0 = i := by omega
            have h4 : y0 + i ≤ ey.val := by omega
            have h5 : y0 ≤ ey.val := by omega
            have h6 : ey.val < y0 + (i + (count + 1)) := by omega
            simp [spritePixel, h1, h2, h3, h4, h5, h6]
          · have h1 : ¬ (⟨y0 + i, hy⟩ : Fin 32) = ey := fun h => he (congrArg Fin.val h).symm
            have h2 : (y0 + (i + 1) ≤ ey.val) ↔ (y0 + i ≤ ey.val) := by omega
            simp [h1, h2]
        · rename_i hy
          injection hok with hok
          subst hok
          have : ¬ y0 + i ≤ ey.val := by omega
          simp [this]
      · cases hb

/-- The rows collide exactly where a pixel they flip was lit (R136). -/
theorem hit_drawRows (s : State) (x0 y0 : Nat) :
    ∀ (count i : Nat) (g h : Drawing), drawRows s x0 y0 count i g = .ok h →
      (h.hit = true ↔ g.hit = true ∨ ∃ (ex : Fin 64) (ey : Fin 32),
        y0 + i ≤ ey.val ∧ spritePixel s x0 y0 (i + count) ex ey = true ∧ Display.lit g.disp ex ey = true) := by
  intro count
  induction count with
  | zero =>
    intro i g h hok
    simp only [drawRows, Except.ok.injEq] at hok
    subst hok
    refine ⟨.inl, ?_⟩
    rintro (h | ⟨ex, ey, h1, h2, -⟩)
    · exact h
    · simp [spritePixel] at h2; omega
  | succ count ih =>
    intro i g h hok
    unfold drawRows memRead at hok
    split at hok
    · cases hok
    · rename_i b hb
      split at hb
      · injection hb with hb
        subst hb
        split at hok
        · rename_i hy
          rw [ih _ _ _ hok, hit_drawColumns]
          have hcount : i + 1 + count = i + (count + 1) := by omega
          rw [hcount]
          have hrow : ∀ ex : Fin 64, (x0 + 0 ≤ ex.val ∧ ex.val < x0 + 0 + 8 ∧
              spriteBit (s.readByte (effectiveAddress s i)) (ex.val - x0) = true) ↔
              spritePixel s x0 y0 (i + (count + 1)) ex ⟨y0 + i, hy⟩ = true := by
            intro ex
            have h3 : y0 + i - y0 = i := by omega
            have h6 : y0 + i < y0 + (i + (count + 1)) := by omega
            simp [spritePixel, h3, and_assoc]
          have hlit : ∀ (ex : Fin 64) (ey : Fin 32), y0 + (i + 1) ≤ ey.val →
              Display.lit (drawColumns (s.readByte (effectiveAddress s i)) x0 ⟨y0 + i, hy⟩ 8 0 g).disp ex ey =
                Display.lit g.disp ex ey := by
            intro ex ey he
            have h1 : ¬ (⟨y0 + i, hy⟩ : Fin 32) = ey := fun h => by
              have := congrArg Fin.val h
              simp only at this
              omega
            simp [lit_drawColumns, h1]
          constructor
          · rintro ((h | ⟨ex, h1, h2, h3, h4⟩) | ⟨ex, ey, h1, h2, h3⟩)
            · exact .inl h
            · exact .inr ⟨ex, ⟨y0 + i, hy⟩, Nat.le_refl _, (hrow ex).1 ⟨h1, h2, h3⟩, h4⟩
            · exact .inr ⟨ex, ey, by omega, h2, (hlit ex ey h1) ▸ h3⟩
          · rintro (h | ⟨ex, ey, h1, h2, h3⟩)
            · exact .inl (.inl h)
            · by_cases he : ey.val = y0 + i
              · have hey : ey = ⟨y0 + i, hy⟩ := Fin.ext he
                subst hey
                obtain ⟨a1, a2, a3⟩ := (hrow ex).2 h2
                exact .inl (.inr ⟨ex, a1, a2, a3, h3⟩)
              · exact .inr ⟨ex, ey, by omega, h2, (hlit ex ey (by omega)).symm ▸ h3⟩
        · rename_i hy
          injection hok with hok
          subst hok
          refine ⟨.inl, ?_⟩
          rintro (h | ⟨ex, ey, h1, -⟩)
          · exact h
          · have := ey.isLt; omega
      · cases hb

end Sys2Proof.Machine
end

