-- ==== Sys2Proof/Laws/Frame.lean ====
section
/-! SUPPORT. Frames: how `ChangesOnly` composes, and what each update of the state leaves alone. -/

namespace Sys2Proof.Machine

theorem Part.same_refl (p : Part) (s : State) : p.same s s := by cases p <;> simp [Part.same]

theorem Part.same_trans {p : Part} {s t u : State} (h : p.same s t) (g : p.same t u) : p.same s u := by
  cases p <;> simp_all [Part.same]

theorem ChangesOnly.refl (named : Part → Prop) (s : State) : ChangesOnly named s s := fun p _ => p.same_refl s

theorem ChangesOnly.mono {named more : Part → Prop} {s t : State} (h : ChangesOnly named s t)
    (hm : ∀ p, named p → more p) : ChangesOnly more s t := fun p hp => h p fun hn => hp (hm p hn)

theorem ChangesOnly.trans {named : Part → Prop} {s t u : State} (h : ChangesOnly named s t)
    (g : ChangesOnly named t u) : ChangesOnly named s u := fun p hp => Part.same_trans (h p hp) (g p hp)

/-! ### One update -/

theorem changesOnly_setReg (s : State) (x : Reg) (v : Byte) : ChangesOnly (fun p => p = .reg x) s (s.setReg x v) := by
  intro p hp
  cases p with
  | reg r => exact State.reg_setReg_ne s x r v fun h => hp (by rw [h])
  | _ => simp [Part.same]

theorem changesOnly_setVF (s : State) (b : Bool) : ChangesOnly (fun p => p = .reg 0xF) s (s.setVF b) :=
  changesOnly_setReg s regVF (flagByte b)

theorem changesOnly_setI (s : State) (v : Word) : ChangesOnly (fun p => p = .index) s (s.setI v) := by
  intro p hp
  cases p <;> simp_all [Part.same]

theorem changesOnly_setPC (s : State) (v : Word) : ChangesOnly (fun p => p = .pc) s (s.setPC v) := by
  intro p hp
  cases p <;> simp_all [Part.same]

theorem changesOnly_setDT (s : State) (v : Byte) : ChangesOnly (fun p => p = .delayTimer) s (s.setDT v) := by
  intro p hp
  cases p <;> simp_all [Part.same]

theorem changesOnly_setST (s : State) (v : Byte) : ChangesOnly (fun p => p = .soundTimer) s (s.setST v) := by
  intro p hp
  cases p <;> simp_all [Part.same]

theorem changesOnly_setStack (s : State) (l : List Word) : ChangesOnly (fun p => p = .stack) s (s.setStack l) := by
  intro p hp
  cases p <;> simp_all [Part.same]

theorem changesOnly_setOutput (s : State) (o : StepOutput) : ChangesOnly (fun p => p = .output) s (s.setOutput o) := by
  intro p hp
  cases p <;> simp_all [Part.same]

theorem changesOnly_setDisplay (s : State) (d : Display) :
    ChangesOnly (fun p => ∃ cx cy, p = .pixel cx cy) s (s.setDisplay d) := by
  intro p hp
  cases p with
  | pixel cx cy => exact absurd ⟨cx, cy, rfl⟩ hp
  | _ => simp [Part.same]

theorem changesOnly_writeBytes (s : State) (a : Nat) (xs : List Byte) :
    ChangesOnly (fun p => ∃ k, k < xs.length ∧ p = .byte (a + k)) s (s.writeBytes a xs) := by
  intro p hp
  cases p with
  | byte b =>
    show (s.writeBytes a xs).readByte b = s.readByte b
    rw [State.readByte_writeBytes]
    split
    · rename_i hab
      rw [List.getElem?_eq_none, Option.getD_none]
      exact Nat.not_lt.1 fun hlt => hp ⟨b - a, hlt, by rw [Nat.add_sub_cancel' hab]⟩
    · rfl
  | inputs => rw [State.writeBytes_frame]; exact ⟨rfl, rfl⟩
  | _ => rw [State.writeBytes_frame]; rfl

/-! ### The reset contents of memory (R26, R190) -/

theorem resetByte_font (c : Config) (k : Fin 80) : resetByte c (0x050 + k.val) = c.fontRom[k.val] := by
  have h1 : fontBase ≤ 0x050 + k.val ∧ 0x050 + k.val < fontBase + fontSize := by
    have := k.isLt
    unfold fontBase fontSize; omega
  have h2 : 0x050 + k.val - fontBase = k.val := by unfold fontBase; omega
  unfold resetByte
  rw [if_pos h1, h2]
  simp

theorem resetByte_fill (c : Config) (a : Nat) (h : a < 0x050 ∨ 0x0A0 ≤ a) : resetByte c a = c.memFill := by
  have h1 : ¬ (fontBase ≤ a ∧ a < fontBase + fontSize) := by unfold fontBase fontSize; omega
  unfold resetByte
  rw [if_neg h1]

end Sys2Proof.Machine
end

