-- ==== Sys2Proof/Laws/Operands.lean ====
section
/-! SUPPORT. Operands: the block load, the registers a block store stores, the key a register names, the lowest pressed key,
and what a skip leaves (43_index_memory.md R124 to R126, 45_keys_timers.md R145, R148). -/

namespace Sys2Proof.Machine

/-! ### The block load -/

/-- A block load completes exactly when its last address is valid, and otherwise reports the first invalid address (R125,
R166). -/
theorem loadRegs_completes : ∀ (count i : Nat) (s : State),
    (count = 0 ∨ effectiveAddress s (i + count - 1) < memSize → ∃ t, loadRegs count i s = .ok t) ∧
    (¬ (count = 0 ∨ effectiveAddress s (i + count - 1) < memSize) →
      loadRegs count i s = .error (max (effectiveAddress s i) memSize)) := by
  intro count
  induction count with
  | zero => intro i s; simp [loadRegs]
  | succ count ih =>
    intro i s
    unfold loadRegs memRead
    by_cases ha : effectiveAddress s i < memSize
    · simp only [ha, if_true]
      have key := ih (i + 1) (s.setReg (Fin.ofNat 16 i) (s.readByte (effectiveAddress s i)))
      have hea : ∀ k, effectiveAddress (s.setReg (Fin.ofNat 16 i) (s.readByte (effectiveAddress s i))) k =
          effectiveAddress s k := fun _ => rfl
      rw [hea, hea] at key
      by_cases hc : count = 0
      · subst hc
        exact ⟨fun _ => key.1 (.inl rfl), fun h => absurd (.inr ha) h⟩
      · have h1 : i + 1 + count - 1 = i + (count + 1) - 1 := by omega
        have h2 : max (effectiveAddress s (i + 1)) memSize = max (effectiveAddress s i) memSize := by
          unfold effectiveAddress at *; omega
        rw [h1, h2] at key
        simp only [hc, false_or] at key
        exact ⟨fun h => key.1 (h.resolve_left (by omega)), fun h => key.2 fun h' => h (.inr h')⟩
    · have h2 : max (effectiveAddress s i) memSize = effectiveAddress s i := by omega
      have h3 : effectiveAddress s i ≤ effectiveAddress s (i + (count + 1) - 1) := by
        unfold effectiveAddress; omega
      simp only [ha, if_false, h2, implies_true, and_true]
      intro h
      rcases h with h | h <;> omega

/-- A block load changes the registers only. -/
theorem loadRegs_frame : ∀ (count i : Nat) (s t : State), loadRegs count i s = .ok t → t = { s with V := t.V } := by
  intro count
  induction count with
  | zero =>
    intro i s t h
    simp only [loadRegs, Except.ok.injEq] at h
    subst h; rfl
  | succ count ih =>
    intro i s t h
    unfold loadRegs at h
    split at h
    · cases h
    · have key := ih _ _ _ h
      exact key

/-- Register `r` of the block gets the byte at `I + r`; every other register is unchanged (R125). -/
theorem loadRegs_reg : ∀ (count i : Nat) (s t : State), i + count ≤ 16 → loadRegs count i s = .ok t → ∀ r : Reg,
    t.reg r = if i ≤ r.val ∧ r.val < i + count then s.readByte (effectiveAddress s r.val) else s.reg r := by
  intro count
  induction count with
  | zero =>
    intro i s t _ h r
    simp only [loadRegs, Except.ok.injEq] at h
    subst h
    have : ¬ (i ≤ r.val ∧ r.val < i + 0) := by omega
    simp only [this, if_false]
  | succ count ih =>
    intro i s t hb h r
    unfold loadRegs at h
    split at h
    · cases h
    · rename_i b hr
      obtain ⟨-, rfl⟩ := memRead_ok_iff.1 hr
      rw [ih _ _ _ (by omega) h r]
      have hi : (Fin.ofNat 16 i).val = i := Nat.mod_eq_of_lt (by omega)
      by_cases he : r.val = i
      · have h1 : ¬ (i + 1 ≤ r.val ∧ r.val < i + 1 + count) := by omega
        have h2 : i ≤ r.val ∧ r.val < i + (count + 1) := by omega
        have h3 : Fin.ofNat 16 i = r := Fin.ext (hi.trans he.symm)
        rw [if_neg h1, if_pos h2, ← h3, State.reg_setReg_same, hi]
      · have h1 : (i + 1 ≤ r.val ∧ r.val < i + 1 + count) ↔ (i ≤ r.val ∧ r.val < i + (count + 1)) := by omega
        have h3 : ¬ Fin.ofNat 16 i = r := fun h => he ((congrArg Fin.val h).symm.trans hi)
        simp only [h1, State.reg_setReg, h3, if_false]
        rfl

/-! ### The registers a block store stores -/

@[simp] theorem regsUpTo_length (s : State) (x : Reg) : (regsUpTo s x).length = x.val + 1 := by
  simp [regsUpTo]

theorem regsUpTo_ne_nil (s : State) (x : Reg) : regsUpTo s x ≠ [] := by
  intro h
  have := regsUpTo_length s x
  simp [h] at this

theorem regsUpTo_getElem? (s : State) (x r : Reg) (h : r ≤ x) : (regsUpTo s x)[r.val]? = some (s.reg r) := by
  have hr := r.isLt
  have hx : r.val < x.val + 1 := Nat.lt_succ_of_le h
  simp [regsUpTo, hx, State.reg]

/-- A store instruction's outcome: the bytes written, or the fault at the first invalid address (R166). -/
theorem orMemoryFault_storeBytes (s : State) (w : Word) (a : Nat) (xs : List Byte) :
    orMemoryFault s w (storeBytes s a xs) =
      if xs = [] ∨ a + xs.length ≤ memSize then .next (s.writeBytes a xs)
      else .fault (.memoryOutOfBounds w (s.PC - 2) (max a memSize)) := by
  rw [storeBytes_eq]
  split <;> rfl

/-! ### Keys -/

theorem keyIndex_eq_none_iff {v : Byte} : keyIndex v = none ↔ 15 < v.toNat := by
  unfold keyIndex
  split <;> simp <;> omega

theorem keyIndex_eq_some_iff {v : Byte} {k : Fin 16} : keyIndex v = some k ↔ v.toNat = k.val := by
  unfold keyIndex
  split
  · simp [Fin.ext_iff]
  · have := k.isLt; simp; omega

/-- The key found is pressed and no lower one is (R148). -/
theorem lowestKey_eq_some_iff {s : State} {k : Nat} : lowestKey s = some k ↔
    ∃ h : k < 16, s.key ⟨k, h⟩ = true ∧ ∀ j : Fin 16, j.val < k → s.key j = false := by
  unfold lowestKey
  rw [List.findIdx?_eq_some_iff_getElem]
  simp only [Vector.length_toList, Vector.getElem_toList, Bool.not_eq_true]
  constructor
  · rintro ⟨h, h1, h2⟩
    exact ⟨h, h1, fun j hj => h2 j.val hj⟩
  · rintro ⟨h, h1, h2⟩
    exact ⟨h, h1, fun j hj => h2 ⟨j, by omega⟩ hj⟩

theorem lowestKey_eq_none_iff {s : State} : lowestKey s = none ↔ ∀ k : Fin 16, s.key k = false := by
  unfold lowestKey
  rw [List.findIdx?_eq_none_iff]
  constructor
  · intro h k
    exact h _ (Vector.mem_toList_iff.2 (Vector.getElem_mem k.isLt))
  · intro h b hb
    rw [Vector.mem_toList_iff] at hb
    obtain ⟨k, hk, rfl⟩ := Vector.getElem_of_mem hb
    exact h ⟨k, hk⟩

/-! ### Skips -/

/-- A skip changes PC only (R89). -/
theorem skipIf_eq (c : Bool) (s : State) : skipIf c s = s.setPC (if c then s.PC + 2 else s.PC) := by
  cases c <;> rfl

end Sys2Proof.Machine
end

