-- ==== Sys2Proof/Laws/PerInstr.lean ====
section
/-! SUPPORT. Facts about every instruction as syntax, one lemma per constructor. Family `TableRow`: the word of a well-formed
instruction selects a row of the opcode map that has the instruction's label (30_encoding.md R55). -/

namespace Sys2Proof.Laws

/-- The instruction's word selects a row of R55 with the instruction's label. -/
def TableRow.Statement (i : Instr) : Prop :=
  i.wellFormed = true → ∃ r ∈ opcodeRows, r.label = i.label ∧ r.selects (encode i) = true

theorem TableRow.cls : TableRow.Statement .cls :=
  fun _ => ⟨⟨"CLS", 0x00E0#16, 0xFFFF#16⟩, by decide, rfl,
    beq_iff_eq.2 (by decide)⟩

theorem TableRow.ret : TableRow.Statement .ret :=
  fun _ => ⟨⟨"RET", 0x00EE#16, 0xFFFF#16⟩, by decide, rfl,
    beq_iff_eq.2 (by decide)⟩

/-- A SYSNOP word selects one of its four rows, by the highest bit set in `instr[11:8]`. -/
theorem TableRow.sysnop (nnn : Imm12) : TableRow.Statement (.sysnop nnn) := by
  intro h
  have hx : fieldX (wordNNN 0x0#4 nnn) ≠ 0 := by
    rw [fieldX_wordNNN]
    intro h0
    have h0' : nnn.extractLsb' 8 4 = 0#4 := by
      apply BitVec.eq_of_toNat_eq
      exact congrArg Fin.val h0
    simp [Instr.wellFormed, h0'] at h
  have hw := wordXYN_fields (wordNNN 0x0#4 nnn)
  rw [fieldFamily_wordNNN] at hw
  have hrow : ∀ x : Reg, x ≠ 0 → (nibble x &&& nibble 8).toFin = 8 ∨ (nibble x &&& nibble 12).toFin = 4 ∨
      (nibble x &&& nibble 14).toFin = 2 ∨ (nibble x &&& nibble 15).toFin = 1 := by decide
  have h0 : ∀ r : Reg, (nibble r &&& nibble 0).toFin = 0 := by decide
  have m8 : 0xF800#16 = wordXYN 0xF#4 8 0 0#4 := by decide
  have m4 : 0xFC00#16 = wordXYN 0xF#4 12 0 0#4 := by decide
  have m2 : 0xFE00#16 = wordXYN 0xF#4 14 0 0#4 := by decide
  have m1 : 0xFF00#16 = wordXYN 0xF#4 15 0 0#4 := by decide
  have hn : ∀ n : BitVec 4, n &&& 0#4 = 0#4 := by decide
  rcases hrow _ hx with hr | hr | hr | hr
  · refine ⟨⟨"SYSNOP", 0x0800#16, 0xF800#16⟩, by decide, rfl, beq_iff_eq.2 ?_⟩
    show wordNNN 0x0#4 nnn &&& 0xF800#16 = 0x0800#16
    rw [← hw, m8, wordXYN_and, hr, h0, hn]; decide
  · refine ⟨⟨"SYSNOP", 0x0400#16, 0xFC00#16⟩, by decide, rfl, beq_iff_eq.2 ?_⟩
    show wordNNN 0x0#4 nnn &&& 0xFC00#16 = 0x0400#16
    rw [← hw, m4, wordXYN_and, hr, h0, hn]; decide
  · refine ⟨⟨"SYSNOP", 0x0200#16, 0xFE00#16⟩, by decide, rfl, beq_iff_eq.2 ?_⟩
    show wordNNN 0x0#4 nnn &&& 0xFE00#16 = 0x0200#16
    rw [← hw, m2, wordXYN_and, hr, h0, hn]; decide
  · refine ⟨⟨"SYSNOP", 0x0100#16, 0xFF00#16⟩, by decide, rfl, beq_iff_eq.2 ?_⟩
    show wordNNN 0x0#4 nnn &&& 0xFF00#16 = 0x0100#16
    rw [← hw, m1, wordXYN_and, hr, h0, hn]; decide

theorem TableRow.jp (nnn : Imm12) : TableRow.Statement (.jp nnn) :=
  fun _ => ⟨⟨"JP", 0x1000#16, 0xF000#16⟩, by decide, rfl,
    beq_iff_eq.2 (by simp only [encode]; rw [and_F000, fieldFamily_wordNNN]; decide)⟩

theorem TableRow.call (nnn : Imm12) : TableRow.Statement (.call nnn) :=
  fun _ => ⟨⟨"CALL", 0x2000#16, 0xF000#16⟩, by decide, rfl,
    beq_iff_eq.2 (by simp only [encode]; rw [and_F000, fieldFamily_wordNNN]; decide)⟩

theorem TableRow.seImm (x : Reg) (kk : Byte) : TableRow.Statement (.seImm x kk) :=
  fun _ => ⟨⟨"SE_IMM", 0x3000#16, 0xF000#16⟩, by decide, rfl,
    beq_iff_eq.2 (by simp only [encode]; rw [and_F000, fieldFamily_wordXKK]; decide)⟩

theorem TableRow.sneImm (x : Reg) (kk : Byte) : TableRow.Statement (.sneImm x kk) :=
  fun _ => ⟨⟨"SNE_IMM", 0x4000#16, 0xF000#16⟩, by decide, rfl,
    beq_iff_eq.2 (by simp only [encode]; rw [and_F000, fieldFamily_wordXKK]; decide)⟩

theorem TableRow.seReg (x : Reg) (y : Reg) : TableRow.Statement (.seReg x y) :=
  fun _ => ⟨⟨"SE_REG", 0x5000#16, 0xF00F#16⟩, by decide, rfl,
    beq_iff_eq.2 (by simp only [encode]; rw [and_F00F, fieldFamily_wordXYN, fieldN_wordXYN]; decide)⟩

theorem TableRow.ldImm (x : Reg) (kk : Byte) : TableRow.Statement (.ldImm x kk) :=
  fun _ => ⟨⟨"LD_IMM", 0x6000#16, 0xF000#16⟩, by decide, rfl,
    beq_iff_eq.2 (by simp only [encode]; rw [and_F000, fieldFamily_wordXKK]; decide)⟩

theorem TableRow.addImm (x : Reg) (kk : Byte) : TableRow.Statement (.addImm x kk) :=
  fun _ => ⟨⟨"ADD_IMM", 0x7000#16, 0xF000#16⟩, by decide, rfl,
    beq_iff_eq.2 (by simp only [encode]; rw [and_F000, fieldFamily_wordXKK]; decide)⟩

theorem TableRow.movReg (x : Reg) (y : Reg) : TableRow.Statement (.movReg x y) :=
  fun _ => ⟨⟨"MOV", 0x8000#16, 0xF00F#16⟩, by decide, rfl,
    beq_iff_eq.2 (by simp only [encode]; rw [and_F00F, fieldFamily_wordXYN, fieldN_wordXYN]; decide)⟩

theorem TableRow.orReg (x : Reg) (y : Reg) : TableRow.Statement (.orReg x y) :=
  fun _ => ⟨⟨"OR", 0x8001#16, 0xF00F#16⟩, by decide, rfl,
    beq_iff_eq.2 (by simp only [encode]; rw [and_F00F, fieldFamily_wordXYN, fieldN_wordXYN]; decide)⟩

theorem TableRow.andReg (x : Reg) (y : Reg) : TableRow.Statement (.andReg x y) :=
  fun _ => ⟨⟨"AND", 0x8002#16, 0xF00F#16⟩, by decide, rfl,
    beq_iff_eq.2 (by simp only [encode]; rw [and_F00F, fieldFamily_wordXYN, fieldN_wordXYN]; decide)⟩

theorem TableRow.xorReg (x : Reg) (y : Reg) : TableRow.Statement (.xorReg x y) :=
  fun _ => ⟨⟨"XOR", 0x8003#16, 0xF00F#16⟩, by decide, rfl,
    beq_iff_eq.2 (by simp only [encode]; rw [and_F00F, fieldFamily_wordXYN, fieldN_wordXYN]; decide)⟩

theorem TableRow.addReg (x : Reg) (y : Reg) : TableRow.Statement (.addReg x y) :=
  fun _ => ⟨⟨"ADD", 0x8004#16, 0xF00F#16⟩, by decide, rfl,
    beq_iff_eq.2 (by simp only [encode]; rw [and_F00F, fieldFamily_wordXYN, fieldN_wordXYN]; decide)⟩

theorem TableRow.subReg (x : Reg) (y : Reg) : TableRow.Statement (.subReg x y) :=
  fun _ => ⟨⟨"SUB", 0x8005#16, 0xF00F#16⟩, by decide, rfl,
    beq_iff_eq.2 (by simp only [encode]; rw [and_F00F, fieldFamily_wordXYN, fieldN_wordXYN]; decide)⟩

theorem TableRow.shr (x : Reg) (y : Reg) : TableRow.Statement (.shr x y) :=
  fun _ => ⟨⟨"SHR", 0x8006#16, 0xF00F#16⟩, by decide, rfl,
    beq_iff_eq.2 (by simp only [encode]; rw [and_F00F, fieldFamily_wordXYN, fieldN_wordXYN]; decide)⟩

theorem TableRow.subnReg (x : Reg) (y : Reg) : TableRow.Statement (.subnReg x y) :=
  fun _ => ⟨⟨"SUBN", 0x8007#16, 0xF00F#16⟩, by decide, rfl,
    beq_iff_eq.2 (by simp only [encode]; rw [and_F00F, fieldFamily_wordXYN, fieldN_wordXYN]; decide)⟩

theorem TableRow.shl (x : Reg) (y : Reg) : TableRow.Statement (.shl x y) :=
  fun _ => ⟨⟨"SHL", 0x800E#16, 0xF00F#16⟩, by decide, rfl,
    beq_iff_eq.2 (by simp only [encode]; rw [and_F00F, fieldFamily_wordXYN, fieldN_wordXYN]; decide)⟩

theorem TableRow.sneReg (x : Reg) (y : Reg) : TableRow.Statement (.sneReg x y) :=
  fun _ => ⟨⟨"SNE_REG", 0x9000#16, 0xF00F#16⟩, by decide, rfl,
    beq_iff_eq.2 (by simp only [encode]; rw [and_F00F, fieldFamily_wordXYN, fieldN_wordXYN]; decide)⟩

theorem TableRow.ldI (nnn : Imm12) : TableRow.Statement (.ldI nnn) :=
  fun _ => ⟨⟨"LD_I", 0xA000#16, 0xF000#16⟩, by decide, rfl,
    beq_iff_eq.2 (by simp only [encode]; rw [and_F000, fieldFamily_wordNNN]; decide)⟩

theorem TableRow.jpV0 (nnn : Imm12) : TableRow.Statement (.jpV0 nnn) :=
  fun _ => ⟨⟨"JP_V0", 0xB000#16, 0xF000#16⟩, by decide, rfl,
    beq_iff_eq.2 (by simp only [encode]; rw [and_F000, fieldFamily_wordNNN]; decide)⟩

theorem TableRow.rnd (x : Reg) (kk : Byte) : TableRow.Statement (.rnd x kk) :=
  fun _ => ⟨⟨"RND", 0xC000#16, 0xF000#16⟩, by decide, rfl,
    beq_iff_eq.2 (by simp only [encode]; rw [and_F000, fieldFamily_wordXKK]; decide)⟩

theorem TableRow.drw (x : Reg) (y : Reg) (n : Height) : TableRow.Statement (.drw x y n) :=
  fun _ => ⟨⟨"DRW", 0xD000#16, 0xF000#16⟩, by decide, rfl,
    beq_iff_eq.2 (by simp only [encode]; rw [and_F000, fieldFamily_wordXYN]; decide)⟩

theorem TableRow.skp (x : Reg) : TableRow.Statement (.skp x) :=
  fun _ => ⟨⟨"SKP", 0xE09E#16, 0xF0FF#16⟩, by decide, rfl,
    beq_iff_eq.2 (by simp only [encode]; rw [and_F0FF, fieldFamily_wordXKK, fieldKk_wordXKK]; decide)⟩

theorem TableRow.sknp (x : Reg) : TableRow.Statement (.sknp x) :=
  fun _ => ⟨⟨"SKNP", 0xE0A1#16, 0xF0FF#16⟩, by decide, rfl,
    beq_iff_eq.2 (by simp only [encode]; rw [and_F0FF, fieldFamily_wordXKK, fieldKk_wordXKK]; decide)⟩

theorem TableRow.ldVxDt (x : Reg) : TableRow.Statement (.ldVxDt x) :=
  fun _ => ⟨⟨"LD_VX_DT", 0xF007#16, 0xF0FF#16⟩, by decide, rfl,
    beq_iff_eq.2 (by simp only [encode]; rw [and_F0FF, fieldFamily_wordXKK, fieldKk_wordXKK]; decide)⟩

theorem TableRow.ldVxKey (x : Reg) : TableRow.Statement (.ldVxKey x) :=
  fun _ => ⟨⟨"LD_VX_KEY", 0xF00A#16, 0xF0FF#16⟩, by decide, rfl,
    beq_iff_eq.2 (by simp only [encode]; rw [and_F0FF, fieldFamily_wordXKK, fieldKk_wordXKK]; decide)⟩

theorem TableRow.ldDtVx (x : Reg) : TableRow.Statement (.ldDtVx x) :=
  fun _ => ⟨⟨"LD_DT_VX", 0xF015#16, 0xF0FF#16⟩, by decide, rfl,
    beq_iff_eq.2 (by simp only [encode]; rw [and_F0FF, fieldFamily_wordXKK, fieldKk_wordXKK]; decide)⟩

theorem TableRow.ldStVx (x : Reg) : TableRow.Statement (.ldStVx x) :=
  fun _ => ⟨⟨"LD_ST_VX", 0xF018#16, 0xF0FF#16⟩, by decide, rfl,
    beq_iff_eq.2 (by simp only [encode]; rw [and_F0FF, fieldFamily_wordXKK, fieldKk_wordXKK]; decide)⟩

theorem TableRow.addI (x : Reg) : TableRow.Statement (.addI x) :=
  fun _ => ⟨⟨"ADD_I", 0xF01E#16, 0xF0FF#16⟩, by decide, rfl,
    beq_iff_eq.2 (by simp only [encode]; rw [and_F0FF, fieldFamily_wordXKK, fieldKk_wordXKK]; decide)⟩

theorem TableRow.ldF (x : Reg) : TableRow.Statement (.ldF x) :=
  fun _ => ⟨⟨"LD_F", 0xF029#16, 0xF0FF#16⟩, by decide, rfl,
    beq_iff_eq.2 (by simp only [encode]; rw [and_F0FF, fieldFamily_wordXKK, fieldKk_wordXKK]; decide)⟩

theorem TableRow.bcd (x : Reg) : TableRow.Statement (.bcd x) :=
  fun _ => ⟨⟨"BCD", 0xF033#16, 0xF0FF#16⟩, by decide, rfl,
    beq_iff_eq.2 (by simp only [encode]; rw [and_F0FF, fieldFamily_wordXKK, fieldKk_wordXKK]; decide)⟩

theorem TableRow.stm (x : Reg) : TableRow.Statement (.stm x) :=
  fun _ => ⟨⟨"STM", 0xF055#16, 0xF0FF#16⟩, by decide, rfl,
    beq_iff_eq.2 (by simp only [encode]; rw [and_F0FF, fieldFamily_wordXKK, fieldKk_wordXKK]; decide)⟩

theorem TableRow.ldm (x : Reg) : TableRow.Statement (.ldm x) :=
  fun _ => ⟨⟨"LDM", 0xF065#16, 0xF0FF#16⟩, by decide, rfl,
    beq_iff_eq.2 (by simp only [encode]; rw [and_F0FF, fieldFamily_wordXKK, fieldKk_wordXKK]; decide)⟩

end Sys2Proof.Laws
end

