-- ==== Sys2Proof/Laws/Step.lean ====
section
/-! SUPPORT. The Step: what each phase leaves (40_step_cycle.md R67 to R69, R72), and the cases of a Step said once (R73). -/

namespace Sys2Proof.Machine

/-! ### Advance and tick -/

/-- The advance and the tick change PC, DT and ST, and clear the outputs. -/
theorem State.beginStep_eq (s : State) : s.beginStep = { s with
    PC := s.PC + 2
    DT := if s.tickEn then tickTimer s.DT else s.DT
    ST := if s.tickEn then tickTimer s.ST else s.ST
    OUT := .quiet } := by
  have h : s.advance.tickEn = s.tickEn := rfl
  unfold State.beginStep State.tick
  rw [h]
  split <;> rfl

@[simp] theorem State.beginStep_PC (s : State) : s.beginStep.PC = s.PC + 2 := by rw [s.beginStep_eq]
@[simp] theorem State.beginStep_DT (s : State) :
    s.beginStep.DT = if s.tickEn then tickTimer s.DT else s.DT := by rw [s.beginStep_eq]
@[simp] theorem State.beginStep_ST (s : State) :
    s.beginStep.ST = if s.tickEn then tickTimer s.ST else s.ST := by rw [s.beginStep_eq]
@[simp] theorem State.beginStep_OUT (s : State) : s.beginStep.OUT = .quiet := by rw [s.beginStep_eq]
@[simp] theorem State.beginStep_config (s : State) : s.beginStep.config = s.config := by rw [s.beginStep_eq]
@[simp] theorem State.beginStep_V (s : State) : s.beginStep.V = s.V := by rw [s.beginStep_eq]
@[simp] theorem State.beginStep_I (s : State) : s.beginStep.I = s.I := by rw [s.beginStep_eq]
@[simp] theorem State.beginStep_S (s : State) : s.beginStep.S = s.S := by rw [s.beginStep_eq]
@[simp] theorem State.beginStep_MEM (s : State) : s.beginStep.MEM = s.MEM := by rw [s.beginStep_eq]
@[simp] theorem State.beginStep_DISP (s : State) : s.beginStep.DISP = s.DISP := by rw [s.beginStep_eq]
@[simp] theorem State.beginStep_status (s : State) : s.beginStep.status = s.status := by rw [s.beginStep_eq]
@[simp] theorem State.beginStep_pending (s : State) : s.beginStep.pending = s.pending := by rw [s.beginStep_eq]
@[simp] theorem State.beginStep_drawIndex (s : State) : s.beginStep.drawIndex = s.drawIndex := by rw [s.beginStep_eq]
@[simp] theorem State.beginStep_reg (s : State) (r : Reg) : s.beginStep.reg r = s.reg r := by
  rw [s.beginStep_eq]; rfl
@[simp] theorem State.beginStep_readByte (s : State) (a : Nat) : s.beginStep.readByte a = s.readByte a := by
  rw [s.beginStep_eq]; rfl
@[simp] theorem State.beginStep_pixel (s : State) (cx : Fin 64) (cy : Fin 32) :
    s.beginStep.pixel cx cy = s.pixel cx cy := by rw [s.beginStep_eq]; rfl
@[simp] theorem State.beginStep_input (s : State) : s.beginStep.input = s.input := by rw [s.beginStep_eq]; rfl
@[simp] theorem State.beginStep_key (s : State) (k : Fin 16) : s.beginStep.key k = s.key k := by
  rw [s.beginStep_eq]; rfl
@[simp] theorem State.beginStep_rnd (s : State) : s.beginStep.rnd = s.rnd := by rw [s.beginStep_eq]; rfl
@[simp] theorem State.beginStep_pcFetch (s : State) : s.beginStep.pcFetch = s.PC := by
  unfold State.pcFetch; rw [State.beginStep_PC]; exact BitVec.add_sub_cancel _ _

/-- A timer is decremented unless it is 0, where it stays (R69). -/
theorem tickTimer_toNat (v : Byte) : (tickTimer v).toNat = v.toNat - 1 := by
  unfold tickTimer
  split
  · bv_omega
  · simp_all

/-! ### The end of a Step -/

@[simp] theorem State.endStep_config (s t : State) : (s.endStep t).config = t.config := rfl
@[simp] theorem State.endStep_V (s t : State) : (s.endStep t).V = t.V := rfl
@[simp] theorem State.endStep_I (s t : State) : (s.endStep t).I = t.I := rfl
@[simp] theorem State.endStep_PC (s t : State) : (s.endStep t).PC = t.PC := rfl
@[simp] theorem State.endStep_S (s t : State) : (s.endStep t).S = t.S := rfl
@[simp] theorem State.endStep_DT (s t : State) : (s.endStep t).DT = t.DT := rfl
@[simp] theorem State.endStep_ST (s t : State) : (s.endStep t).ST = t.ST := rfl
@[simp] theorem State.endStep_MEM (s t : State) : (s.endStep t).MEM = t.MEM := rfl
@[simp] theorem State.endStep_DISP (s t : State) : (s.endStep t).DISP = t.DISP := rfl
@[simp] theorem State.endStep_status (s t : State) : (s.endStep t).status = t.status := rfl
@[simp] theorem State.endStep_pending (s t : State) : (s.endStep t).pending = t.pending.tail := rfl
@[simp] theorem State.endStep_drawIndex (s t : State) : (s.endStep t).drawIndex = t.drawIndex + 1 := rfl
@[simp] theorem State.endStep_logEvent (s t : State) : (s.endStep t).OUT.logEvent = t.OUT.logEvent := rfl
@[simp] theorem State.endStep_reg (s t : State) (r : Reg) : (s.endStep t).reg r = t.reg r := rfl
@[simp] theorem State.endStep_readByte (s t : State) (a : Nat) : (s.endStep t).readByte a = t.readByte a := rfl
@[simp] theorem State.endStep_pixel (s t : State) (cx : Fin 64) (cy : Fin 32) :
    (s.endStep t).pixel cx cy = t.pixel cx cy := rfl

/-! ### The fetch -/

/-- A word is fetched exactly when `PC + 1 < 4096`, and it is the two bytes at PC, high byte first (R67, R33). -/
theorem fetch_eq_some_iff {s : State} {w : Word} : fetch s = some w ↔
    s.PC.toNat + 1 < memSize ∧ w = joinBytes (s.readByte s.PC.toNat) (s.readByte (s.PC.toNat + 1)) := by
  unfold fetch
  split <;> simp_all [eq_comm]

theorem fetch_eq_none_iff {s : State} : fetch s = none ↔ memSize ≤ s.PC.toNat + 1 := by
  unfold fetch
  split <;> simp_all

/-- The word stored where the next Step fetches is the word it fetches. -/
theorem fetch_storeFetchWord (s : State) (w : Word) (h : s.PC.toNat + 1 < memSize) :
    fetch (s.storeFetchWord w) = some w := by
  have hpc : (s.storeFetchWord w).PC = s.PC := by
    unfold State.storeFetchWord; rw [if_pos h, State.writeBytes_frame]
  rw [fetch_eq_some_iff, hpc]
  refine ⟨h, ?_⟩
  unfold State.storeFetchWord
  rw [if_pos h]
  simp [State.readByte_writeBytes]

/-! ### The cases of a Step -/

theorem finishStep_eq_next_iff {s t : State} {o : Host.Outcome State Fault Refusal} :
    finishStep s o = .next t ↔ ∃ u, o = .next u ∧ t = s.endStep u := by
  cases o <;> simp [finishStep, eq_comm]

theorem finishStep_eq_fault_iff {s : State} {f : Fault} {o : Host.Outcome State Fault Refusal} :
    finishStep s o = .fault f ↔ o = .fault f := by
  cases o <;> simp [finishStep]

theorem finishStep_eq_refused_iff {s : State} {r : Refusal} {o : Host.Outcome State Fault Refusal} :
    finishStep s o = .refused r ↔ o = .refused r := by
  cases o <;> simp [finishStep]

/-- A Step that completes (R73): the machine was running, a word was fetched and is an instruction, the dispatch in the
advanced and ticked state answered a next state, and the Step ends it. -/
theorem step_eq_next_iff {s t : State} : step s = .next t ↔
    s.status = .running ∧ ∃ w i u, fetch s = some w ∧ decodeWord w = .ok i ∧ exec i s.beginStep = .next u ∧
      t = s.endStep u := by
  unfold step
  cases hs : s.status with
  | faulted r => simp
  | running =>
    cases hf : fetch s with
    | none => simp [fetchFault]
    | some w =>
      cases hd : decodeWord w with
      | error e => simp [hd, illegalWord, raise]
      | ok i => simp [hd, finishStep_eq_next_iff]

/-- A Step that faults (R66, R67, R70, R171): no Step, a fetch out of bounds, an illegal word, or a fault of the dispatch. -/
theorem step_eq_fault_iff {s : State} {f : Fault} : step s = .fault f ↔
    (∃ r, s.status = .faulted r ∧ f = .noStep r) ∨
    (s.status = .running ∧ fetch s = none ∧ f = .fetchOutOfBounds s.PC) ∨
    (s.status = .running ∧ ∃ w e, fetch s = some w ∧ decodeWord w = .error e ∧ f = .unknownOpcode w s.PC) ∨
    (s.status = .running ∧ ∃ w i, fetch s = some w ∧ decodeWord w = .ok i ∧ exec i s.beginStep = .fault f) := by
  unfold step
  cases hs : s.status with
  | faulted r => simp [eq_comm]
  | running =>
    cases hf : fetch s with
    | none => simp [fetchFault, eq_comm]
    | some w =>
      cases hd : decodeWord w with
      | error e => simp [hd, illegalWord, raise, eq_comm]
      | ok i => simp [hd, finishStep_eq_fault_iff]

end Sys2Proof.Machine
end

