-- ==== Sys2Proof/Tests/Slice0.lean ====
section
/-! SUPPORT. The model's own tests. Expected results are from the spec: the words from the patterns of 30_encoding.md R55, the
results from the vectors of 95_test_vectors.md (section 2, by family) and the examples of the instruction rules. The last
sections show, for each obligation with hypotheses, states and operands that meet them. -/

namespace Sys2Proof.Tests

open Sys2Proof Sys2Proof.Machine

-- One theorem at a time: checked in parallel, the tests' threads reserve more memory than a check may.
set_option Elab.async false

/-! ### Helpers: small states, and what one Step gives -/

/-- Reset, changed by `f`, with a word where the next Step fetches. -/
def start (w : Nat) (f : State → State := id) : State := (f State.reset).withFetchWord 16 w

def regs (l : List (Reg × Byte)) (s : State) : State := l.foldl (fun t p => t.setReg p.1 p.2) s

def light (l : List (Fin 64 × Fin 32)) (s : State) : State :=
  s.setDisplay (l.foldl (fun d p => Display.put d p.1 p.2 true) s.DISP)

def keysOf (l : List Nat) : Vector Bool 16 :=
  l.foldl (fun v k => v.setIfInBounds k true) (Vector.replicate 16 false)

/-- The host's inputs of the coming Step: the keys down, the random byte, the tick enable. -/
def host (down : List Nat) (rnd : Byte) (tick : Bool) (s : State) : State := s.offerInput ⟨keysOf down, rnd, tick⟩

/-- A machine constructed with `TIMER_TICK_MODE = External`. -/
def external (s : State) : State := { s with config := { s.config with tickMode := .external } }

def nextOf : Host.Outcome State Fault Refusal → Option State
  | .next t => some t
  | _ => none

def faultIn : Host.Outcome State Fault Refusal → Option Fault
  | .fault f => some f
  | _ => none

/-- What `f` sees after one Step; none if the Step does not complete. -/
def seen {α : Type} (s : State) (f : State → α) : Option α := (nextOf (step s)).map f

/-- The lit pixels after one Step are exactly those listed. -/
def showsOnly (s : State) (l : List (Fin 64 × Fin 32)) : Bool :=
  seen s (fun t => Display.differs t.DISP (light l State.reset).DISP) == some false

/-! ### WellFormed: the one check (R57) -/

theorem test_sysnop_of_high_nibble_zero_is_illFormed :
    Instr.wellFormed (.sysnop 0x0E0) = false ∧ Instr.wellFormed (.sysnop 0x0FF) = false := by decide

theorem test_sysnop_of_high_nibble_nonzero_is_wellFormed :
    Instr.wellFormed (.sysnop 0x100) = true ∧ Instr.wellFormed (.sysnop 0xFFF) = true := by decide

/-! ### Decoding: a word of every row of R55, written out from its pattern -/

theorem test_decode_families_0_to_2 :
    decodeWord 0x00E0 = .ok .cls ∧ decodeWord 0x00EE = .ok .ret ∧
    decodeWord 0x0800 = .ok (.sysnop 0x800) ∧ decodeWord 0x04E0 = .ok (.sysnop 0x4E0) ∧
    decodeWord 0x02EE = .ok (.sysnop 0x2EE) ∧ decodeWord 0x0123 = .ok (.sysnop 0x123) ∧
    decodeWord 0x1204 = .ok (.jp 0x204) ∧ decodeWord 0x2FFF = .ok (.call 0xFFF) := by decide

theorem test_decode_families_3_to_7 :
    decodeWord 0x3F01 = .ok (.seImm 0xF 0x01) ∧ decodeWord 0x4A07 = .ok (.sneImm 0xA 0x07) ∧
    decodeWord 0x5120 = .ok (.seReg 1 2) ∧ decodeWord 0x60EA = .ok (.ldImm 0 0xEA) ∧
    decodeWord 0x71FF = .ok (.addImm 1 0xFF) := by decide

theorem test_decode_family_8 :
    decodeWord 0x8120 = .ok (.movReg 1 2) ∧ decodeWord 0x8F31 = .ok (.orReg 0xF 3) ∧ decodeWord 0x8012 = .ok (.andReg 0 1) ∧
    decodeWord 0x8013 = .ok (.xorReg 0 1) ∧ decodeWord 0x80F4 = .ok (.addReg 0 0xF) ∧ decodeWord 0x8015 = .ok (.subReg 0 1) ∧
    decodeWord 0x8126 = .ok (.shr 1 2) ∧ decodeWord 0x8017 = .ok (.subnReg 0 1) ∧ decodeWord 0x812E = .ok (.shl 1 2) := by
  decide

theorem test_decode_families_9_to_D :
    decodeWord 0x9120 = .ok (.sneReg 1 2) ∧ decodeWord 0xA300 = .ok (.ldI 0x300) ∧ decodeWord 0xBFFF = .ok (.jpV0 0xFFF) ∧
    decodeWord 0xC00F = .ok (.rnd 0 0x0F) ∧ decodeWord 0xD01F = .ok (.drw 0 1 0xF) ∧ decodeWord 0xDEF0 = .ok (.drw 0xE 0xF 0) := by
  decide

theorem test_decode_families_E_and_F :
    decodeWord 0xE19E = .ok (.skp 1) ∧ decodeWord 0xEFA1 = .ok (.sknp 0xF) ∧ decodeWord 0xF107 = .ok (.ldVxDt 1) ∧
    decodeWord 0xF20A = .ok (.ldVxKey 2) ∧ decodeWord 0xF015 = .ok (.ldDtVx 0) ∧ decodeWord 0xF318 = .ok (.ldStVx 3) ∧
    decodeWord 0xF01E = .ok (.addI 0) ∧ decodeWord 0xFF29 = .ok (.ldF 0xF) ∧ decodeWord 0xF033 = .ok (.bcd 0) ∧
    decodeWord 0xFF55 = .ok (.stm 0xF) ∧ decodeWord 0xF265 = .ok (.ldm 2) := by decide

/-- The illegal sets of R56 at their edges, with the vectors' illegal words. -/
theorem test_decode_rejects_each_illegal_set :
    decodeWord 0x0000 = .error .illegalFamily0 ∧ decodeWord 0x00E1 = .error .illegalFamily0 ∧
    decodeWord 0x00FF = .error .illegalFamily0 ∧ decodeWord 0x5121 = .error .illegalFamily5 ∧
    decodeWord 0x8128 = .error .illegalFamily8 ∧ decodeWord 0x812D = .error .illegalFamily8 ∧
    decodeWord 0x812F = .error .illegalFamily8 ∧ decodeWord 0x912F = .error .illegalFamily9 ∧
    decodeWord 0xE1A0 = .error .illegalFamilyE ∧ decodeWord 0xE100 = .error .illegalFamilyE ∧
    decodeWord 0xF100 = .error .illegalFamilyF ∧ decodeWord 0xF1FF = .error .illegalFamilyF := by decide

/-- Bytes come high byte first, and a lone byte is no instruction (R33, R50). -/
theorem test_decode_bytes : decode [0x61, 0x05, 0xAA] = .ok (.ldImm 1 0x05, [0xAA]) ∧ decode [0x61] = .error .truncated := by
  decide

theorem test_encode_words : encode (.drw 0 1 2) = 0xD012 ∧ encode (.sysnop 0x123) = 0x0123 ∧ encode (.shr 1 2) = 0x8126 ∧
    encode (.ldm 2) = 0xF265 ∧ encodeBytes (.ldImm 1 0x05) = [0x61, 0x05] := by decide

theorem test_decodeTableWord : decodeTableWord 16 0xD012 = some (.drw 0 1 2) ∧ decodeTableWord 16 0x0100 = some (.sysnop 0x100) ∧
    decodeTableWord 16 0x0000 = none := by decide

/-! ### Reset and Load (R26, R190, R191) -/

/-- The memory lists nothing; the font and the fill stand where R190 puts them. -/
theorem test_reset : State.reset.PC = 0x200 ∧ Memory.wf State.reset.config State.reset.MEM ∧ State.reset.readByte 0x04F = 0 ∧
    State.reset.readByte 0x050 = 0xF0 ∧ State.reset.readByte 0x055 = 0x20 ∧ State.reset.readByte 0x09F = 0x80 ∧
    State.reset.readByte 0x0A0 = 0 := by decide +kernel

/-- With nothing loaded the first Step raises `UnknownOpcode(0x0000)` (R192). -/
theorem test_reset_with_nothing_loaded : faultIn (step State.reset) = some (.unknownOpcode 0x0000 0x200) := by decide +kernel

/-- The first word of program P1 runs as the first Step after boot (95_test_vectors.md section 3). -/
theorem test_boot_runs_the_first_word :
    ((nextOf (boot defaultConfig [0x60, 0x05, 0x61, 0x03, 0x80, 0x14])).bind (fun s => seen s (fun t => (t.reg 0, t.PC)))) =
      some (0x05, 0x202) := by decide +kernel

/-! ### The Step's phases (95_test_vectors.md 2.1) -/

theorem test_tick_each_timer_alone : seen (start 0x6000 fun s => s.setDT 1) (fun t => (t.DT, t.ST)) = some (0, 0) ∧
    seen (start 0x6000 fun s => (s.setDT 255).setST 2) (fun t => (t.DT, t.ST)) = some (254, 1) := by decide +kernel

theorem test_no_tick_when_disabled :
    seen (start 0x6000 fun s => host [] 0 false (external ((s.setDT 255).setST 2))) (fun t => (t.DT, t.ST)) =
      some (255, 2) := by decide +kernel

theorem test_fetch_bound : seen (start 0x6000 fun s => s.setPC 0xFFE) (·.PC) = some 0x1000 ∧
    faultIn (step (State.reset.setPC 0xFFF)) = some (.fetchOutOfBounds 0xFFF) := by decide +kernel

theorem test_fetch_from_an_odd_address :
    seen (start 0x6A07 fun s => s.setPC 0x301) (fun t => (t.reg 0xA, t.PC)) = some (0x07, 0x303) := by decide +kernel

theorem test_faulted_machine_is_stuck :
    faultIn (step (State.reset.enterFaulted (.stackUnderflow 0x00EE 0x200))) = some (.noStep ⟨3, some 0x00EE, 0x200, none⟩) := by
  decide +kernel

/-- The records of P7's first two causes, each with the extra value of R161's table. -/
theorem test_fault_records :
    (faultIn (step (State.reset.setPC 0xFFF))).map Fault.record = some ⟨1, none, 0xFFF, some 0xFFF⟩ ∧
    (faultIn (step (start 0x5121))).map Fault.record = some ⟨2, some 0x5121, 0x200, some 0x5121⟩ := by decide +kernel

/-! ### Control transfer (95_test_vectors.md 2.2) -/

theorem test_ret : seen (start 0x00EE fun s => s.setStack [0x300, 0x206]) (fun t => (t.PC, t.S)) = some (0x300, [0x206]) := by
  decide +kernel

theorem test_ret_on_empty_stack : faultIn (step (start 0x00EE)) = some (.stackUnderflow 0x00EE 0x200) := by decide +kernel

theorem test_sysnop_logs : seen (start 0x0123) (fun t => (t.PC, t.OUT)) =
    some (0x202, ⟨false, some ⟨0x0123, 0x200⟩⟩) := by decide +kernel

/-- 0x01E0 does not clear the display. -/
theorem test_sysnop_low_byte_plays_no_part :
    seen (start 0x01E0 (light [(0, 0)])) (fun t => (t.pixel 0 0, t.OUT.displayChanged)) = some (true, false) := by decide +kernel

theorem test_jp : seen (start 0x1204 fun s => s.setPC 0x20A) (·.PC) = some 0x204 ∧
    seen (start 0x1FFF) (·.PC) = some 0xFFF := by decide +kernel

theorem test_call : seen (start 0x2210 fun s => s.setPC 0x204) (fun t => (t.PC, t.S)) = some (0x210, [0x206]) := by
  decide +kernel

theorem test_call_at_full_depth :
    faultIn (step (start 0x2300 fun s => s.setStack (List.replicate 16 0x202))) = some (.stackOverflow 0x2300 0x200) ∧
    (seen (start 0x2300 fun s => s.setStack (List.replicate 15 0x400)) (fun t => (t.S.length, t.S.head?))) =
      some (16, some 0x202) := by decide +kernel

theorem test_seImm : seen (start 0x3100) (·.PC) = some 0x204 ∧ seen (start 0x3100 (regs [(1, 4)])) (·.PC) = some 0x202 := by
  decide +kernel

theorem test_sneImm : seen (start 0x4A07 (regs [(0xA, 7)])) (·.PC) = some 0x202 ∧
    seen (start 0x4A07 (regs [(0xA, 8)])) (·.PC) = some 0x204 := by decide +kernel

theorem test_seReg : seen (start 0x5120 (regs [(1, 9), (2, 9)])) (·.PC) = some 0x204 ∧
    seen (start 0x5120 (regs [(1, 9), (2, 8)])) (·.PC) = some 0x202 := by decide +kernel

theorem test_sneReg : seen (start 0x9120 (regs [(1, 9), (2, 9)])) (·.PC) = some 0x202 ∧
    seen (start 0x9120 (regs [(1, 9), (2, 8)])) (·.PC) = some 0x204 := by decide +kernel

/-- The offset register is V0, not V[x]; the sum is not masked. -/
theorem test_jpV0 : seen (start 0xB300 (regs [(0, 0x10), (3, 0x44)])) (·.PC) = some 0x310 ∧
    seen (start 0xBFFF (regs [(0, 0xFF)])) (·.PC) = some 0x10FE := by decide +kernel

/-! ### Registers (95_test_vectors.md 2.3) -/

theorem test_ldImm : seen (start 0x60EA) (fun t => (t.reg 0, t.PC)) = some (0xEA, 0x202) := by decide +kernel

theorem test_addImm : seen (start 0x710A (regs [(1, 250), (0xF, 1)])) (fun t => (t.reg 1, t.reg 0xF)) = some (4, 1) ∧
    seen (start 0x7F02 (regs [(0xF, 0xFF)])) (·.reg 0xF) = some 0x01 := by decide +kernel

theorem test_mov : seen (start 0x8120 (regs [(2, 7)])) (fun t => (t.reg 1, t.reg 2)) = some (7, 7) := by decide +kernel

theorem test_or : seen (start 0x8011 (regs [(0, 0x0F), (1, 0xF0), (0xF, 1)])) (fun t => (t.reg 0, t.reg 0xF)) =
    some (0xFF, 1) := by decide +kernel

theorem test_and : seen (start 0x8012 (regs [(0, 0x3C), (1, 0x0F), (0xF, 1)])) (fun t => (t.reg 0, t.reg 0xF)) =
    some (0x0C, 1) := by decide +kernel

theorem test_xor : seen (start 0x8013 (regs [(0, 0xFF), (1, 0x0F), (0xF, 1)])) (fun t => (t.reg 0, t.reg 0xF)) =
    some (0xF0, 1) := by decide +kernel

theorem test_add : seen (start 0x8014 (regs [(0, 200), (1, 100)])) (fun t => (t.reg 0, t.reg 0xF)) = some (44, 1) ∧
    seen (start 0x8014 (regs [(0, 255), (1, 0), (0xF, 1)])) (fun t => (t.reg 0, t.reg 0xF)) = some (255, 0) := by decide +kernel

theorem test_add_flag_register : seen (start 0x8F14 (regs [(0xF, 200), (1, 100)])) (·.reg 0xF) = some 1 ∧
    seen (start 0x80F4 (regs [(0, 255), (0xF, 1)])) (fun t => (t.reg 0, t.reg 0xF)) = some (0, 1) := by decide +kernel

theorem test_sub : seen (start 0x8015 (regs [(0, 5), (1, 10)])) (fun t => (t.reg 0, t.reg 0xF)) = some (251, 0) ∧
    seen (start 0x8015 (regs [(0, 7), (1, 7)])) (fun t => (t.reg 0, t.reg 0xF)) = some (0, 1) := by decide +kernel

theorem test_sub_flag_register : seen (start 0x8F15 (regs [(0xF, 10), (1, 3)])) (·.reg 0xF) = some 1 ∧
    seen (start 0x80F5 (regs [(0, 5), (0xF, 6)])) (fun t => (t.reg 0, t.reg 0xF)) = some (255, 0) := by decide +kernel

theorem test_shr : seen (start 0x8126 (regs [(1, 0xAA), (2, 0x05)])) (fun t => (t.reg 1, t.reg 2, t.reg 0xF)) =
    some (0x02, 0x02, 1) := by decide +kernel

/-- With `y = 0xF` VF ends as the flag, with `x = 0xF` too. -/
theorem test_shr_flag_register : seen (start 0x81F6 (regs [(0xF, 7)])) (fun t => (t.reg 1, t.reg 0xF)) = some (3, 1) ∧
    seen (start 0x8F26 (regs [(2, 6)])) (fun t => (t.reg 2, t.reg 0xF)) = some (3, 0) := by decide +kernel

theorem test_subn : seen (start 0x8017 (regs [(0, 10), (1, 5)])) (fun t => (t.reg 0, t.reg 1, t.reg 0xF)) = some (251, 5, 0) ∧
    seen (start 0x8017 (regs [(0, 5), (1, 10)])) (fun t => (t.reg 0, t.reg 1, t.reg 0xF)) = some (5, 10, 1) := by decide +kernel

theorem test_shl : seen (start 0x812E (regs [(1, 0xAA), (2, 0x81)])) (fun t => (t.reg 1, t.reg 2, t.reg 0xF)) =
    some (0x02, 0x02, 1) ∧
    seen (start 0x81FE (regs [(0xF, 0xC0)])) (fun t => (t.reg 1, t.reg 0xF)) = some (0x80, 1) := by decide +kernel

theorem test_rnd : seen (start 0xC00F (host [] 0xA7 true)) (·.reg 0) = some 0x07 ∧
    seen (start 0xC1FF (host [] 0x5A true)) (·.reg 1) = some 0x5A := by decide +kernel

/-! ### Index register and memory (95_test_vectors.md 2.4) -/

theorem test_ldI : seen (start 0xAFFF fun s => s.setI 0xFFFF) (·.I) = some 0x0FFF := by decide +kernel

/-- Not masked to 12 bits; the carry is out of 16 bits, and its absence clears VF. -/
theorem test_addI : seen (start 0xF01E fun s => regs [(0, 1), (0xF, 1)] (s.setI 0xFFF)) (fun t => (t.I, t.reg 0xF)) =
    some (0x1000, 0) ∧
    seen (start 0xF01E fun s => regs [(0, 0xFF)] (s.setI 0xFF01)) (fun t => (t.I, t.reg 0xF)) = some (0x0000, 1) := by
  decide +kernel

theorem test_ldF : seen (start 0xF029 (regs [(0, 0x0A)])) (·.I) = some 0x082 ∧
    seen (start 0xF029 (regs [(0, 0xFF)])) (·.I) = some 0x54B := by decide +kernel

theorem test_bcd : seen (start 0xF033 fun s => regs [(0, 199)] (s.setI 0xFFD))
      (fun t => (t.readByte 0xFFD, t.readByte 0xFFE, t.readByte 0xFFF, t.I)) = some (1, 9, 9, 0xFFD) ∧
    faultIn (step (start 0xF033 fun s => regs [(0, 199)] (s.setI 0xFFE))) = some (.memoryOutOfBounds 0xF033 0x200 0x1000) := by
  decide +kernel

theorem test_stm : seen (start 0xF255 fun s => regs [(0, 1), (1, 2), (2, 3), (3, 4)] (s.setI 0x400))
      (fun t => (t.readByte 0x400, t.readByte 0x401, t.readByte 0x402, t.readByte 0x403)) = some (1, 2, 3, 0) := by decide +kernel

theorem test_stm_out_of_bounds : faultIn (step (start 0xF155 fun s => s.setI 0xFFF)) =
      some (.memoryOutOfBounds 0xF155 0x200 0x1000) ∧
    faultIn (step (start 0xF055 fun s => s.setI 0xFFFF)) = some (.memoryOutOfBounds 0xF055 0x200 0xFFFF) := by decide +kernel

theorem test_ldm : seen (start 0xF265 fun s => (s.writeBytes 0x300 [2, 3, 4, 9]).setI 0x300)
      (fun t => (t.reg 0, t.reg 1, t.reg 2, t.reg 3)) = some (2, 3, 4, 0) := by decide +kernel

theorem test_ldm_out_of_bounds : faultIn (step (start 0xF165 fun s => s.setI 0xFFF)) =
    some (.memoryOutOfBounds 0xF165 0x200 0x1000) := by decide +kernel

/-- The canonical form: writing the byte an unlisted address reads as removes the entry. -/
theorem test_write_of_the_reset_byte_unlists :
    ((State.reset.writeByte 0x050 0x12).writeByte 0x050 0xF0).MEM = [] ∧
    ((State.reset.writeByte 0x300 7).writeByte 0x200 5).MEM = [(0x200, 5), (0x300, 7)] := by decide +kernel

/-! ### Display (95_test_vectors.md 2.5) -/

theorem test_cls : seen (start 0x00E0 fun s => regs [(0xF, 1)] (light [(0, 0), (63, 31)] s))
      (fun t => (t.pixel 0 0, t.pixel 63 31, t.OUT.displayChanged, t.reg 0xF)) = some (false, false, true, 1) ∧
    seen (start 0x00E0) (·.OUT.displayChanged) = some false := by decide +kernel

/-- A partial collision; a start that wraps; clipping right and at the bottom; with `x = 0xF` the column is the old VF
(decision D16). -/
theorem test_drw_pictures :
    showsOnly (start 0xD011 fun s => light [(1, 0), (5, 5)] ((s.writeBytes 0x300 [0xC0]).setI 0x300)) [(0, 0), (5, 5)] = true ∧
    showsOnly (start 0xD011 fun s => regs [(0, 67), (1, 34)] ((s.writeBytes 0x300 [0x80]).setI 0x300)) [(3, 2)] = true ∧
    showsOnly (start 0xD011 fun s => regs [(0, 60)] ((s.writeBytes 0x300 [0xFF]).setI 0x300))
      [(60, 0), (61, 0), (62, 0), (63, 0)] = true ∧
    showsOnly (start 0xD013 fun s => regs [(1, 30)] ((s.writeBytes 0x300 [0x80, 0x80, 0x80]).setI 0x300))
      [(0, 30), (0, 31)] = true ∧
    showsOnly (start 0xDF11 fun s => regs [(0xF, 5), (1, 1)] ((s.writeBytes 0x300 [0x80]).setI 0x300)) [(5, 1)] = true := by
  decide +kernel

/-- VF after a collision; no row draws and reads nothing; the byte of the first clipped row is read (decision D17). -/
theorem test_drw_flag_and_bounds :
    seen (start 0xD011 fun s => light [(1, 0)] ((s.writeBytes 0x300 [0xC0]).setI 0x300))
      (fun t => (t.reg 0xF, t.OUT.displayChanged, t.I)) = some (1, true, 0x300) ∧
    seen (start 0xD010 fun s => regs [(0xF, 1)] (light [(0, 0)] (s.setI 0xFFFF)))
      (fun t => (t.pixel 0 0, t.reg 0xF, t.OUT.displayChanged)) = some (true, 0, false) ∧
    faultIn (step (start 0xD012 fun s => regs [(1, 31)] (s.setI 0xFFF))) = some (.memoryOutOfBounds 0xD012 0x200 0x1000) ∧
    showsOnly (start 0xD012 fun s => regs [(1, 31)] ((s.writeBytes 0xFFE [0x80, 0x80]).setI 0xFFE)) [(0, 31)] = true := by
  decide +kernel

/-! ### Keys and timers (95_test_vectors.md 2.6) -/

theorem test_skp : seen (start 0xE19E fun s => host [7] 0 true (regs [(1, 7)] s)) (·.PC) = some 0x204 ∧
    seen (start 0xE19E fun s => host [6] 0 true (regs [(1, 7)] s)) (·.PC) = some 0x202 := by decide +kernel

theorem test_skp_index_16 : faultIn (step (start 0xE19E fun s => host [0] 0 true (regs [(1, 16)] s))) =
    some (.keyIndexOutOfRange 0xE19E 0x200 16) := by decide +kernel

theorem test_sknp : seen (start 0xE1A1 fun s => host [] 0 true (regs [(1, 7)] s)) (·.PC) = some 0x204 ∧
    seen (start 0xE1A1 fun s => host [7] 0 true (regs [(1, 7)] s)) (·.PC) = some 0x202 := by decide +kernel

theorem test_sknp_index_255 : faultIn (step (start 0xE1A1 (regs [(1, 255)]))) =
    some (.keyIndexOutOfRange 0xE1A1 0x200 255) := by decide +kernel

theorem test_ldVxKey_waits : seen (start 0xF20A fun s => host [] 0 true ((regs [(2, 9)] (s.setPC 0x206)).setDT 3))
      (fun t => (t.PC, t.reg 2, t.DT)) = some (0x206, 9, 2) := by decide +kernel

theorem test_ldVxKey_takes_the_lowest : seen (start 0xF20A fun s => host [7, 3] 0 true (regs [(2, 9)] (s.setPC 0x206)))
      (fun t => (t.PC, t.reg 2)) = some (0x208, 3) := by decide +kernel

theorem test_ldVxDt_reads_the_ticked_value : seen (start 0xF107 fun s => s.setDT 5) (fun t => (t.reg 1, t.DT)) = some (4, 4) ∧
    seen (start 0xF107 (regs [(1, 9)])) (fun t => (t.reg 1, t.DT)) = some (0, 0) := by decide +kernel

theorem test_ldDtVx : seen (start 0xF015 fun s => ((regs [(0, 5)] s).setDT 9).setST 9) (fun t => (t.DT, t.ST)) =
    some (5, 8) := by decide +kernel

theorem test_ldStVx : seen (start 0xF318 fun s => ((regs [(3, 0x20)] s).setDT 1).setST 1) (fun t => (t.ST, t.DT)) =
    some (0x20, 0) := by decide +kernel

/-! ### Witnesses: states and operands that meet the hypotheses of each obligation that has any -/

theorem exists_next {o : Host.Outcome State Fault Refusal} (h : (nextOf o).isSome = true) : ∃ t, o = .next t := by
  cases o with
  | next t => exact ⟨t, rfl⟩
  | fault f => cases h
  | refused r => cases h

theorem exists_fault {o : Host.Outcome State Fault Refusal} (h : (faultIn o).isSome = true) : ∃ f, o = .fault f := by
  cases o with
  | next t => cases h
  | fault f => exact ⟨f, rfl⟩
  | refused r => cases h

/-- A running machine that fetches the word. -/
theorem fetches_start {s : State} {w : Word} (hr : decide (s.status = .running) = true)
    (hf : decide (fetch s = some w) = true) : Fetches s w := ⟨of_decide_eq_true hr, of_decide_eq_true hf⟩

theorem dispatches_start {s : State} (w : Word) {i : Instr} (hr : decide (s.status = .running) = true)
    (hf : decide (fetch s = some w) = true) (hd : decide (decodeWord w = .ok i) = true) : Dispatches s i :=
  ⟨w, fetches_start hr hf, of_decide_eq_true hd⟩

/-- DecodeOfEncodeIsTheInstruction: well-formed instructions, the no-op at both ends of its space. -/
theorem witness_wellFormed : Instr.wellFormed (.sysnop 0x100) = true ∧ Instr.wellFormed (.sysnop 0xFFF) = true ∧
    Instr.wellFormed (.drw 0xF 0xF 0xF) = true := by decide

/-- EncodeOfDecodeIsTheWord. -/
theorem witness_decodes : decodeWord 0x0100 = .ok (.sysnop 0x100) ∧ decodeWord 0xFF65 = .ok (.ldm 0xF) := by decide

/-- UnknownOpcodeExactlyOnTheIllegalSets: a fetched word at the edges of each set, and a legal one. -/
theorem witness_illegal_words : IllegalWord 0x0000 ∧ IllegalWord 0x00FF ∧ IllegalWord 0x5001 ∧ IllegalWord 0x5FFF ∧
    IllegalWord 0x8008 ∧ IllegalWord 0x8FFF ∧ IllegalWord 0x9001 ∧ IllegalWord 0x9FFF ∧ IllegalWord 0xE000 ∧
    IllegalWord 0xEFFF ∧ IllegalWord 0xF000 ∧ IllegalWord 0xFFFF ∧ ¬ IllegalWord 0x00E0 ∧ ¬ IllegalWord 0x00EE ∧
    ¬ IllegalWord 0x0100 ∧ ¬ IllegalWord 0x5FF0 ∧ ¬ IllegalWord 0x800E ∧ ¬ IllegalWord 0xE09E ∧ ¬ IllegalWord 0xF065 := by
  simp [IllegalWord]

theorem witness_fetches_illegal_and_legal : Fetches (start 0x5121) 0x5121 ∧ Fetches (start 0x5120) 0x5120 :=
  ⟨fetches_start (by decide +kernel) (by decide +kernel), fetches_start (by decide +kernel) (by decide +kernel)⟩

/-- StepRunsTheDecodedInstruction. -/
theorem witness_dispatches : Dispatches (start 0x8014) (.addReg 0 1) :=
  dispatches_start 0x8014 (by decide +kernel) (by decide +kernel) (by decide)

/-- FetchReadsBigEndianBelow4095AndFaultsAbove: running machines on both sides of the bound. -/
theorem witness_fetch_bound : (State.reset.setPC 4094).status = .running ∧ (State.reset.setPC 4094).PC.toNat < 4095 ∧
    (State.reset.setPC 4095).status = .running ∧ 4095 ≤ (State.reset.setPC 4095).PC.toNat := by decide

/-- FaultedMachineHasNoStep: a faulted machine, and a Step that completes. -/
theorem witness_faulted : (State.reset.enterFaulted (.stackUnderflow 0x00EE 0x200)).status =
    .faulted ⟨3, some 0x00EE, 0x200, none⟩ ∧ ∃ t, step (start 0x6000) = .next t :=
  ⟨rfl, exists_next (by decide +kernel)⟩

/-- TimersTickBeforeTheDispatch, ProgramCounterAfterAStepIsAsTabled, EachComponentChangesOnlyByItsInstructions and
RegistersChangeOnlyByTheirInstructions: a dispatched instruction whose Step completes, for each clause. -/
theorem witness_timer_steps :
    (Dispatches (start 0x6000 fun s => (s.setDT 1).setST 1) (.ldImm 0 0) ∧
      ∃ t, step (start 0x6000 fun s => (s.setDT 1).setST 1) = .next t) ∧
    (Dispatches (start 0xF107 fun s => s.setDT 5) (.ldVxDt 1) ∧ ∃ t, step (start 0xF107 fun s => s.setDT 5) = .next t) ∧
    (Dispatches (start 0xF015) (.ldDtVx 0) ∧ ∃ t, step (start 0xF015) = .next t) ∧
    (Dispatches (start 0xF318) (.ldStVx 3) ∧ ∃ t, step (start 0xF318) = .next t) :=
  ⟨⟨dispatches_start 0x6000 (by decide +kernel) (by decide +kernel) (by decide), exists_next (by decide +kernel)⟩,
    ⟨dispatches_start 0xF107 (by decide +kernel) (by decide +kernel) (by decide), exists_next (by decide +kernel)⟩,
    ⟨dispatches_start 0xF015 (by decide +kernel) (by decide +kernel) (by decide), exists_next (by decide +kernel)⟩,
    ⟨dispatches_start 0xF318 (by decide +kernel) (by decide +kernel) (by decide), exists_next (by decide +kernel)⟩⟩

/-- TickEnableFollowsTheMode, and the other statements that name the mode: both modes. -/
theorem witness_modes : State.reset.config.tickMode = .perCycle ∧ (external State.reset).config.tickMode = .external := by
  decide

/-- RegistersChangeOnlyByTheirInstructions: a register off the instruction's list, and LDM's boundary. -/
theorem witness_registers_left_alone : ¬ MayWriteReg (.ldm 2) 3 ∧ MayWriteReg (.ldm 2) 2 ∧ ¬ MayWriteReg (.addReg 0 1) 1 ∧
    MayWriteReg (.addReg 0 1) 0xF ∧ Dispatches (start 0xF265 fun s => s.setI 0x300) (.ldm 2) ∧
    ∃ t, step (start 0xF265 fun s => s.setI 0x300) = .next t :=
  ⟨by simp [MayWriteReg], by simp [MayWriteReg], by simp [MayWriteReg], by simp [MayWriteReg],
    dispatches_start 0xF265 (by decide +kernel) (by decide +kernel) (by decide), exists_next (by decide +kernel)⟩

/-- DisplayChangedExactlyWhenAPixelDiffers: a Step that changes a pixel, and one that changes none. -/
theorem witness_display_steps :
    (Dispatches (start 0x00E0 (light [(63, 31)])) .cls ∧ seen (start 0x00E0 (light [(63, 31)])) (·.OUT.displayChanged) = some true) ∧
    (Dispatches (start 0x00E0) .cls ∧ seen (start 0x00E0) (·.OUT.displayChanged) = some false) :=
  ⟨⟨dispatches_start 0x00E0 (by decide +kernel) (by decide +kernel) (by decide), by decide +kernel⟩,
    ⟨dispatches_start 0x00E0 (by decide +kernel) (by decide +kernel) (by decide), by decide +kernel⟩⟩

/-- LogEventExactlyOnFamilyZeroNoOps: the no-op at both ends of its space, and the instruction next to it. -/
theorem witness_log_steps :
    (Fetches (start 0x0100) 0x0100 ∧ ∃ t, step (start 0x0100) = .next t) ∧
    (Fetches (start 0x0FFF) 0x0FFF ∧ ∃ t, step (start 0x0FFF) = .next t) ∧
    (Fetches (start 0x00E0) 0x00E0 ∧ ∃ t, step (start 0x00E0) = .next t) :=
  ⟨⟨fetches_start (by decide +kernel) (by decide +kernel), exists_next (by decide +kernel)⟩,
    ⟨fetches_start (by decide +kernel) (by decide +kernel), exists_next (by decide +kernel)⟩,
    ⟨fetches_start (by decide +kernel) (by decide +kernel), exists_next (by decide +kernel)⟩⟩

/-- InstructionsFaultExactlyAsListed, and the two-sided statements of RET, CALL, BCD, STM, LDM, DRW, SKP and SKNP: both sides of
each bound. -/
theorem witness_completes_boundaries :
    Completes .ret (State.reset.setStack [0x202]) ∧ ¬ Completes .ret State.reset ∧
    Completes (.call 0) (State.reset.setStack (List.replicate 15 0)) ∧
    ¬ Completes (.call 0) (State.reset.setStack (List.replicate 16 0)) ∧
    Completes (.skp 1) (regs [(1, 15)] State.reset) ∧ ¬ Completes (.sknp 1) (regs [(1, 16)] State.reset) ∧
    Completes (.bcd 0) (State.reset.setI 0xFFD) ∧ ¬ Completes (.bcd 0) (State.reset.setI 0xFFE) ∧
    Completes (.stm 0xF) (State.reset.setI 0xFF0) ∧ ¬ Completes (.stm 0xF) (State.reset.setI 0xFF1) ∧
    Completes (.ldm 0) (State.reset.setI 0xFFF) ∧ ¬ Completes (.ldm 0) (State.reset.setI 0x1000) := by
  refine ⟨?_, ?_, ?_, ?_, ?_, ?_, ?_, ?_, ?_, ?_, ?_, ?_⟩ <;> unfold Completes <;> decide +kernel

/-- A draw with no row reads nothing; one whose second row is off the screen reads that row's byte. -/
theorem witness_draw_boundaries :
    Completes (.drw 0 1 0) (State.reset.setI 0xFFFF) ∧
    Completes (.drw 0 1 2) (regs [(1, 31)] (State.reset.setI 0xFFE)) ∧
    ¬ Completes (.drw 0 1 2) (regs [(1, 31)] (State.reset.setI 0xFFF)) := by
  refine ⟨?_, ?_, ?_⟩ <;> unfold Completes <;> decide +kernel

/-- FaultRecordNamesWordAndFetchAddress: a fault with no word, an illegal word, and a fault of an instruction with no extra
value, with an address, and with a key. -/
theorem witness_faults : (State.reset.status = .running ∧ ∃ f, step State.reset = .fault f) ∧
    ((State.reset.setPC 0xFFF).status = .running ∧ ∃ f, step (State.reset.setPC 0xFFF) = .fault f) ∧
    ((start 0x00EE).status = .running ∧ ∃ f, step (start 0x00EE) = .fault f) ∧
    ((start 0xF055 fun s => s.setI 0x1000).status = .running ∧ ∃ f, step (start 0xF055 fun s => s.setI 0x1000) = .fault f) ∧
    ((start 0xE19E (regs [(1, 16)])).status = .running ∧ ∃ f, step (start 0xE19E (regs [(1, 16)])) = .fault f) :=
  ⟨⟨rfl, exists_fault (by decide +kernel)⟩, ⟨rfl, exists_fault (by decide +kernel)⟩,
    ⟨by decide +kernel, exists_fault (by decide +kernel)⟩, ⟨by decide +kernel, exists_fault (by decide +kernel)⟩,
    ⟨by decide +kernel, exists_fault (by decide +kernel)⟩⟩

/-- InputsReachOnlyKeyAndRandomInstructions: a key instruction under the same keys and another random byte, the random
instruction under the same byte and other keys, and an instruction that reads no input. -/
theorem witness_other_inputs :
    ((¬ ∃ x kk, Instr.skp 1 = .rnd x kk) ∧ (∀ k, (host [7] 0xA7 true State.reset).key k = (host [7] 0x5A true State.reset).key k) ∧
      (host [7] 0xA7 true State.reset).rnd ≠ (host [7] 0x5A true State.reset).rnd) ∧
    (¬ ((∃ x, Instr.rnd 0 0xFF = .skp x) ∨ (∃ x, Instr.rnd 0 0xFF = .sknp x) ∨ ∃ x, Instr.rnd 0 0xFF = .ldVxKey x) ∧
      (host [7] 0xA7 true State.reset).rnd = (host [] 0xA7 true State.reset).rnd ∧
      (host [7] 0xA7 true State.reset).key 7 ≠ (host [] 0xA7 true State.reset).key 7) ∧
    (¬ ((∃ x, Instr.addReg 0 1 = .skp x) ∨ (∃ x, Instr.addReg 0 1 = .sknp x) ∨ ∃ x, Instr.addReg 0 1 = .ldVxKey x) ∧
      ¬ ∃ x kk, Instr.addReg 0 1 = .rnd x kk) :=
  ⟨⟨by simp, by decide +kernel, by decide +kernel⟩, ⟨by simp, by decide +kernel, by decide +kernel⟩, by simp, by simp⟩

/-- RandomByteIsMasked: a state in which the byte is a free value, and one in which the host has fixed it. -/
theorem witness_random_bytes : State.reset.rnd = (Config.freeInput 0).rnd ∧ (host [] 0xA7 true State.reset).rnd = 0xA7 :=
  ⟨rfl, by decide +kernel⟩

/-- FlagRegisterReceivesTheTabledValue: a draw that collides, an addition, and an instruction that leaves VF alone. -/
theorem witness_flag_instructions :
    (∃ t, exec (.drw 0 1 1) (light [(0, 0)] ((State.reset.writeBytes 0x300 [0x80]).setI 0x300)) = .next t) ∧
    (∃ t, exec (.addReg 0xF 1) (regs [(0xF, 200), (1, 100)] State.reset) = .next t) ∧
    (∃ t, exec (.orReg 0 1) State.reset = .next t) ∧ ¬ MayWriteReg (.orReg 0 1) 0xF :=
  ⟨exists_next (by decide +kernel), exists_next (by decide +kernel), exists_next (by decide +kernel), by simp [MayWriteReg]⟩

/-- The parts of the invariant, each checked on its own. -/
theorem inv_start {s : State} (h1 : decide (s.status = .running) = true) (h2 : decide (Memory.wf s.config s.MEM) = true)
    (h3 : decide (s.S.length ≤ s.config.stackDepth) = true) (h4 : (s.S.all fun v => decide (v.toNat ≤ 4096)) = true)
    (h5 : decide (s.PC.toNat ≤ 0x10FE) = true) : Inv s :=
  ⟨of_decide_eq_true h1, of_decide_eq_true h2, of_decide_eq_true h3,
    fun v hv => of_decide_eq_true (List.all_eq_true.1 h4 v hv), of_decide_eq_true h5⟩

/-- EveryStepKeepsTheInvariant: states that meet it and whose Step completes, a call's last free entry among them. -/
theorem witness_invariant :
    (Inv (start 0x2300 fun s => s.setStack (List.replicate 15 0x1000)) ∧
      ∃ t, step (start 0x2300 fun s => s.setStack (List.replicate 15 0x1000)) = .next t) ∧
    (Inv (start 0xF033 fun s => s.setI 0xFFD) ∧ ∃ t, step (start 0xF033 fun s => s.setI 0xFFD) = .next t) :=
  ⟨⟨inv_start (by decide +kernel) (by decide +kernel) (by decide +kernel) (by decide +kernel) (by decide +kernel),
      exists_next (by decide +kernel)⟩,
    ⟨inv_start (by decide +kernel) (by decide +kernel) (by decide +kernel) (by decide +kernel) (by decide +kernel),
      exists_next (by decide +kernel)⟩⟩

/-- LoadPlacesTheProgramOrIsRejected: the longest program, and one byte more. -/
theorem witness_programs : (List.replicate 3584 (0x60 : Byte)).length ≤ 3584 ∧
    3584 < (List.replicate 3585 (0x60 : Byte)).length := by
  rw [List.length_replicate, List.length_replicate]; decide

/-- MemoryReadsBackWhatWasWritten: the addresses on both sides of the bound. -/
theorem witness_addresses : 4095 < 4096 ∧ 4096 ≤ 4096 := by decide

/-- CanonicalMemoriesThatReadAlikeAreEqual: a canonical memory with an entry over the font and one over the fill. -/
theorem witness_canonical_memory : Memory.wf defaultConfig [(0x050, 0x12), (0x300, 7)] := by decide +kernel

/-- StoredBytesAreFetchedAtOnce: a block store of 0x60EA at PC. -/
theorem witness_stored_word :
    (∃ t, exec (.stm 1) (regs [(0, 0x60), (1, 0xEA)] (State.reset.setI 0x200)) = .next t) ∧ (1 : Reg) ≤ 1 ∧
    (1 : Reg).val = (0 : Reg).val + 1 ∧
    (regs [(0, 0x60), (1, 0xEA)] (State.reset.setI 0x200)).PC.toNat =
      effectiveAddress (regs [(0, 0x60), (1, 0xEA)] (State.reset.setI 0x200)) (0 : Reg).val :=
  ⟨exists_next (by decide +kernel), by decide, by decide, by decide +kernel⟩

/-- ReturnGoesBackAfterTheCall: 0x2210 at 0x204, and 0x00EE on the stack it leaves. -/
theorem witness_call_and_return :
    let s := start 0x2210 fun s => s.setPC 0x204
    let u := start 0x00EE fun s => s.setStack [0x206]
    Dispatches s (.call 0x210) ∧ seen s (fun t => decide (u.S = t.S)) = some true ∧ Dispatches u .ret ∧ ∃ v, step u = .next v :=
  ⟨dispatches_start 0x2210 (by decide +kernel) (by decide +kernel) (by decide), by decide +kernel,
    dispatches_start 0x00EE (by decide +kernel) (by decide +kernel) (by decide), exists_next (by decide +kernel)⟩

/-- FamilyZeroNoOpOnlyLogs: both ends of the no-op space. -/
theorem witness_noop_space : 0x100 ≤ (0x100#12).toNat ∧ 0x100 ≤ (0xFFF#12).toNat := by decide

/-- AddWritesTheSumThenTheCarry, SubtractionsWriteTheDifferenceThenNoBorrow, ShiftsWriteBothRegistersThenTheBitShiftedOut:
destinations that are not VF. -/
theorem witness_plain_destination : (0xE : Reg) ≠ 0xF ∧ ((0xE : Reg) = 0xE ∨ (0xE : Reg) = 0xF) := by decide

/-- DrawFlipsTheSpriteAndReportsCollision: a collision, and a draw over unlit pixels. -/
theorem witness_collision :
    let s := light [(0, 0)] ((State.reset.writeBytes 0x300 [0x80]).setI 0x300)
    (s.pixel 0 0 = true ∧ spritePixel s 0 0 1 0 0 = true) ∧
    spritePixel ((State.reset.writeBytes 0x300 [0x80]).setI 0x300) 0 0 1 0 0 = true ∧ State.reset.pixel 0 0 = false := by
  decide +kernel

/-- DrawingTwiceRestoresTheDisplay: two draws of one row on a clear display. -/
theorem witness_two_draws :
    let s := (State.reset.writeBytes 0x300 [0x80]).setI 0x300
    (0 : Reg) ≠ 0xF ∧ (1 : Reg) ≠ 0xF ∧
    ((nextOf (exec (.drw 0 1 1) s)).bind fun t => nextOf (exec (.drw 0 1 1) t)).isSome = true := by decide +kernel

/-- KeySkipsTestTheKeyNamedByTheRegister: the last key, and the first value that is none. -/
theorem witness_key_values : ((regs [(1, 15)] State.reset).reg 1).toNat = (15 : Fin 16).val ∧
    15 < ((regs [(1, 16)] State.reset).reg 1).toNat := by decide +kernel

/-- KeyLoadTakesTheLowestPressedKeyOrRepeats: keys 3 and 7 down, and none. -/
theorem witness_key_snapshots :
    ((host [7, 3] 0 true State.reset).key 3 = true ∧ ∀ j : Fin 16, j < 3 → (host [7, 3] 0 true State.reset).key j = false) ∧
    ∀ k : Fin 16, (host [] 0 true State.reset).key k = false := by decide +kernel

/-- KeyWaitRepeatsWhileTheTimersRunDown: two Steps for which the host has fixed that no key is down. -/
theorem witness_key_wait :
    let s := start 0xF20A fun s => { s with pending := [⟨keysOf [], 0, true⟩, ⟨keysOf [], 0, true⟩] }
    Dispatches s (.ldVxKey 2) ∧ s.config.tickMode = .perCycle ∧
    (∀ j, j < 2 → ∀ key : Fin 16, (s.inputAt j).keys[key.val] = false) :=
  ⟨dispatches_start 0xF20A (by decide +kernel) (by decide +kernel) (by decide), by decide +kernel, by decide +kernel⟩

/-- DelayTimerCountsTheStepsSinceItWasSet, with no Step between: F015 at 0x200 and F107 at 0x202. -/
theorem witness_delay_timer_steps :
    let s := regs [(0, 5)] (State.reset.writeBytes 0x200 [0xF0, 0x15, 0xF1, 0x07])
    s.config.tickMode = .perCycle ∧ Dispatches s (.ldDtVx 0) ∧
    ∃ t, step s = .next t ∧ RunsTo 0 t t ∧ Dispatches t (.ldVxDt 1) ∧ ∃ v, step t = .next v := by
  intro s
  have h1 : Dispatches s (.ldDtVx 0) := dispatches_start 0xF015 (by decide +kernel) (by decide +kernel) (by decide)
  obtain ⟨t, ht⟩ := exists_next (o := step s) (by decide +kernel)
  have h2 : ((nextOf (step s)).map fun t => (t.status, fetch t, (nextOf (step t)).isSome)) =
      some (.running, some 0xF107, true) := by decide +kernel
  rw [ht] at h2
  simp only [nextOf, Option.map_some, Option.some.injEq, Prod.mk.injEq] at h2
  exact ⟨rfl, h1, t, ht, rfl, ⟨0xF107, ⟨h2.1, h2.2.1⟩, by decide⟩, exists_next h2.2.2⟩

/-- JumpToSelfLeavesAllButTheTimers: 0x1200 at 0x200. -/
theorem witness_jump_to_self : Dispatches (start 0x1200) (.jp 0x200) ∧ (0x200#12).toNat = (start 0x1200).PC.toNat :=
  ⟨dispatches_start 0x1200 (by decide +kernel) (by decide +kernel) (by decide), by decide +kernel⟩

end Sys2Proof.Tests
end

section
/-! What a dispatch that completes answers, one rule per instruction whose answer is conditional, and the parts of the
state that each instruction may change, said once for all instructions (41_flow.md to 45_keys_timers.md, 10_state.md R11 to R22). -/

namespace Sys2Proof.Machine

/-! ### The dispatches whose answer is conditional -/

/-- A return needs an entry on the stack, and takes the last pushed one (R80). -/
theorem exec_ret_eq_next_iff {s t : State} : exec .ret s = .next t ↔
    ∃ v rest, s.S = v :: rest ∧ t = (s.setStack rest).setPC v := by
  show execRet s = .next t ↔ _
  unfold execRet pop
  cases s.S <;> simp [raise, eq_comm]

/-- A call needs a free entry on the stack, and pushes the advanced PC (R83). -/
theorem exec_call_eq_next_iff {nnn : Imm12} {s t : State} : exec (.call nnn) s = .next t ↔
    s.S.length < s.config.stackDepth ∧ t = (s.setStack (s.PC :: s.S)).setPC (immTarget nnn) := by
  show execCall nnn s = .next t ↔ _
  unfold execCall push
  split <;> split at * <;> simp_all [raise, eq_comm]

/-- Ex9E needs a key's number in its register (R145). -/
theorem exec_skp_eq_next_iff {x : Reg} {s t : State} : exec (.skp x) s = .next t ↔
    ∃ k : Fin 16, (s.reg x).toNat = k.val ∧ t = skipIf (s.key k) s := by
  show execSkp x s = .next t ↔ _
  simp only [← keyIndex_eq_some_iff]
  unfold execSkp
  cases keyIndex (s.reg x) <;> simp [raise, eq_comm]

/-- ExA1 needs a key's number in its register (R146). -/
theorem exec_sknp_eq_next_iff {x : Reg} {s t : State} : exec (.sknp x) s = .next t ↔
    ∃ k : Fin 16, (s.reg x).toNat = k.val ∧ t = skipIf (!s.key k) s := by
  show execSknp x s = .next t ↔ _
  simp only [← keyIndex_eq_some_iff]
  unfold execSknp
  cases keyIndex (s.reg x) <;> simp [raise, eq_comm]

theorem orMemoryFault_eq_next_iff {s t : State} {w : Word} {result : Except Nat State} :
    orMemoryFault s w result = .next t ↔ result = .ok t := by
  cases result <;> simp [orMemoryFault, raise]

theorem storeBytes_eq_ok_iff {s t : State} {a : Nat} {xs : List Byte} (hx : xs ≠ []) :
    storeBytes s a xs = .ok t ↔ a + xs.length ≤ memSize ∧ t = s.writeBytes a xs := by
  rw [storeBytes_eq]
  split <;> simp_all [eq_comm]

/-- Fx33 needs three valid addresses from I (R123). -/
theorem exec_bcd_eq_next_iff {x : Reg} {s t : State} : exec (.bcd x) s = .next t ↔
    effectiveAddress s 0 + 3 ≤ memSize ∧ t = s.writeBytes (effectiveAddress s 0) (bcdDigits (s.reg x)) :=
  orMemoryFault_eq_next_iff.trans (storeBytes_eq_ok_iff (by simp [bcdDigits]))

/-- Fx55 needs a valid address for each of its registers (R124). -/
theorem exec_stm_eq_next_iff {x : Reg} {s t : State} : exec (.stm x) s = .next t ↔
    effectiveAddress s 0 + (x.val + 1) ≤ memSize ∧ t = s.writeBytes (effectiveAddress s 0) (regsUpTo s x) := by
  rw [← regsUpTo_length s x]
  exact orMemoryFault_eq_next_iff.trans (storeBytes_eq_ok_iff (regsUpTo_ne_nil s x))

/-- Fx65 completes with what the block load answers (R125). -/
theorem exec_ldm_eq_next_iff {x : Reg} {s t : State} : exec (.ldm x) s = .next t ↔
    loadRegs (x.val + 1) 0 s = .ok t :=
  orMemoryFault_eq_next_iff

/-- Dxyn completes with the drawing that its rows leave (R136). -/
theorem exec_drw_eq_next_iff {x y : Reg} {n : Height} {s t : State} : exec (.drw x y n) s = .next t ↔
    ∃ g, drawRows s (startColumn (s.reg x)) (startRow (s.reg y)) n.val 0 ⟨s.DISP, false⟩ = .ok g ∧
      t = s.withDrawing g := by
  refine orMemoryFault_eq_next_iff.trans ?_
  split <;> (rename_i hd; simp [hd, eq_comm])

/-! ### What each instruction may change -/

/-- The parts of the state that the dispatch of an instruction may change. -/
def MayChange (i : Instr) (p : Part) : Prop :=
  match i with
  | .cls => ∃ cx cy, p = .pixel cx cy
  | .ret | .call _ => p = .stack ∨ p = .pc
  | .sysnop _ => p = .output
  | .jp _ | .jpV0 _ | .seImm _ _ | .sneImm _ _ | .seReg _ _ | .sneReg _ _ | .skp _ | .sknp _ => p = .pc
  | .ldImm x _ | .addImm x _ | .movReg x _ | .orReg x _ | .andReg x _ | .xorReg x _ | .rnd x _ | .ldVxDt x => p = .reg x
  | .addReg x _ | .subReg x _ | .subnReg x _ => p = .reg x ∨ p = .reg 0xF
  | .shr x y | .shl x y => p = .reg x ∨ p = .reg y ∨ p = .reg 0xF
  | .ldI _ | .ldF _ => p = .index
  | .addI _ => p = .index ∨ p = .reg 0xF
  | .drw _ _ _ => (∃ cx cy, p = .pixel cx cy) ∨ p = .reg 0xF
  | .ldVxKey x => p = .reg x ∨ p = .pc
  | .ldDtVx _ => p = .delayTimer
  | .ldStVx _ => p = .soundTimer
  | .bcd _ | .stm _ => ∃ a, p = .byte a
  | .ldm x => ∃ r, r ≤ x ∧ p = .reg r

@[simp] theorem skipIf_MEM (c : Bool) (s : State) : (skipIf c s).MEM = s.MEM := by rw [skipIf_eq]; rfl

theorem changesOnly_skipIf (c : Bool) (s : State) : ChangesOnly (fun p => p = .pc) s (skipIf c s) := by
  rw [skipIf_eq]
  exact changesOnly_setPC s _

/-- A result in a register and then a flag in VF (R113). -/
theorem changesOnly_setReg_setVF (s : State) (x : Reg) (v : Byte) (b : Bool) :
    ChangesOnly (fun p => p = .reg x ∨ p = .reg 0xF) s ((s.setReg x v).setVF b) :=
  ((changesOnly_setReg s x v).mono fun _ => .inl).trans ((changesOnly_setVF _ b).mono fun _ => .inr)

/-- A shift writes V[y], V[x] and VF (R108, R110). -/
theorem changesOnly_setReg_setReg_setVF (s : State) (x y : Reg) (v : Byte) (b : Bool) :
    ChangesOnly (fun p => p = .reg x ∨ p = .reg y ∨ p = .reg 0xF) s (((s.setReg y v).setReg x v).setVF b) :=
  ((changesOnly_setReg s y v).mono fun _ h => .inr (.inl h)).trans
    ((changesOnly_setReg_setVF _ x v b).mono fun _ h => h.imp id .inr)

theorem changesOnly_setStack_setPC (s : State) (l : List Word) (v : Word) :
    ChangesOnly (fun p => p = .stack ∨ p = .pc) s ((s.setStack l).setPC v) :=
  ((changesOnly_setStack s l).mono fun _ => .inl).trans ((changesOnly_setPC _ v).mono fun _ => .inr)

theorem changesOnly_writeBytes_some (s : State) (a : Nat) (xs : List Byte) :
    ChangesOnly (fun p => ∃ b, p = .byte b) s (s.writeBytes a xs) :=
  (changesOnly_writeBytes s a xs).mono fun _ ⟨k, _, hp⟩ => ⟨a + k, hp⟩

/-- A key wait writes its register or takes PC back (R148). -/
theorem changesOnly_keyWait (s : State) (x : Reg) :
    ChangesOnly (fun p => p = .reg x ∨ p = .pc) s (keyWait x s) := by
  unfold keyWait
  split
  · exact (changesOnly_setReg s x _).mono fun _ => .inl
  · exact (changesOnly_setPC s _).mono fun _ => .inr

/-- A block load changes the registers of its block only (R125). -/
theorem changesOnly_loadRegs {s t : State} {x : Reg} (h : loadRegs (x.val + 1) 0 s = .ok t) :
    ChangesOnly (fun p => ∃ r, r ≤ x ∧ p = .reg r) s t := by
  intro p hp
  cases p with
  | reg r =>
    have hr : ¬ (0 ≤ r.val ∧ r.val < 0 + (x.val + 1)) := fun hr => hp ⟨r, Nat.le_of_lt_succ (by omega), rfl⟩
    exact (loadRegs_reg _ _ _ _ (by omega) h r).trans (if_neg hr)
  | inputs => rw [loadRegs_frame _ _ _ _ h]; exact ⟨rfl, rfl⟩
  | _ => rw [loadRegs_frame _ _ _ _ h]; rfl

/-- A dispatch that completes changes only what its instruction may change. -/
theorem exec_changesOnly {i : Instr} {s t : State} (h : exec i s = .next t) : ChangesOnly (MayChange i) s t := by
  cases i with
  | ret => obtain ⟨v, rest, -, rfl⟩ := exec_ret_eq_next_iff.1 h; exact changesOnly_setStack_setPC s rest v
  | call nnn => obtain ⟨-, rfl⟩ := exec_call_eq_next_iff.1 h; exact changesOnly_setStack_setPC s _ _
  | skp x => obtain ⟨k, -, rfl⟩ := exec_skp_eq_next_iff.1 h; exact changesOnly_skipIf _ s
  | sknp x => obtain ⟨k, -, rfl⟩ := exec_sknp_eq_next_iff.1 h; exact changesOnly_skipIf _ s
  | bcd x => obtain ⟨-, rfl⟩ := exec_bcd_eq_next_iff.1 h; exact changesOnly_writeBytes_some s _ _
  | stm x => obtain ⟨-, rfl⟩ := exec_stm_eq_next_iff.1 h; exact changesOnly_writeBytes_some s _ _
  | ldm x => exact changesOnly_loadRegs (exec_ldm_eq_next_iff.1 h)
  | drw x y n =>
    obtain ⟨g, -, rfl⟩ := exec_drw_eq_next_iff.1 h
    exact ((changesOnly_setDisplay s g.disp).mono fun _ => .inl).trans ((changesOnly_setVF _ g.hit).mono fun _ => .inr)
  | cls => cases h; exact changesOnly_setDisplay s _
  | sysnop nnn => cases h; exact changesOnly_setOutput s _
  | jp nnn | jpV0 nnn => cases h; exact changesOnly_setPC s _
  | seImm x kk | sneImm x kk | seReg x y | sneReg x y => cases h; exact changesOnly_skipIf _ s
  | ldI nnn | ldF x => cases h; exact changesOnly_setI s _
  | addI x =>
    cases h
    exact ((changesOnly_setI s _).mono fun _ => .inl).trans ((changesOnly_setVF _ _).mono fun _ => .inr)
  | ldVxKey x => cases h; exact changesOnly_keyWait s x
  | ldDtVx x => cases h; exact changesOnly_setDT s _
  | ldStVx x => cases h; exact changesOnly_setST s _
  | addReg x y | subReg x y | subnReg x y => cases h; exact changesOnly_setReg_setVF s x _ _
  | shr x y | shl x y => cases h; exact changesOnly_setReg_setReg_setVF s x y _ _
  | ldImm x kk | addImm x kk | rnd x kk => cases h; exact changesOnly_setReg s x _
  | movReg x y | orReg x y | andReg x y | xorReg x y => cases h; exact changesOnly_setReg s x _
  | ldVxDt x => cases h; exact changesOnly_setReg s x _

/-! ### The table read part by part -/

theorem not_mayChange_status (i : Instr) : ¬ MayChange i .status := by cases i <;> simp [MayChange]

theorem not_mayChange_config (i : Instr) : ¬ MayChange i .config := by cases i <;> simp [MayChange]

theorem mayChange_reg_iff (i : Instr) (r : Reg) : MayChange i (.reg r) ↔ MayWriteReg i r := by
  cases i <;> simp [MayChange, MayWriteReg]

theorem mayChange_stack_iff (i : Instr) : MayChange i .stack ↔ i = .ret ∨ ∃ nnn, i = .call nnn := by
  cases i <;> simp [MayChange]

theorem mayChange_pixel_iff (i : Instr) (cx : Fin 64) (cy : Fin 32) :
    MayChange i (.pixel cx cy) ↔ i = .cls ∨ ∃ x y n, i = .drw x y n := by
  cases i <;> simp [MayChange]

theorem mayChange_index_iff (i : Instr) :
    MayChange i .index ↔ (∃ nnn, i = .ldI nnn) ∨ (∃ x, i = .addI x) ∨ ∃ x, i = .ldF x := by
  cases i <;> simp [MayChange]

/-! ### The components of the state after a dispatch -/

section
variable {i : Instr} {s t : State} (h : exec i s = .next t)
include h

theorem exec_status : t.status = s.status := exec_changesOnly h .status (not_mayChange_status i)

theorem exec_config : t.config = s.config := exec_changesOnly h .config (not_mayChange_config i)

/-- R11, R12: a register that is on neither list for the instruction stays. -/
theorem exec_reg {r : Reg} (hr : ¬ MayWriteReg i r) : t.reg r = s.reg r :=
  exec_changesOnly h (.reg r) fun hc => hr ((mayChange_reg_iff i r).1 hc)

theorem exec_S (hi : ¬ (i = .ret ∨ ∃ nnn, i = .call nnn)) : t.S = s.S :=
  exec_changesOnly h .stack fun hc => hi ((mayChange_stack_iff i).1 hc)

theorem exec_I (hi : ¬ ((∃ nnn, i = .ldI nnn) ∨ (∃ x, i = .addI x) ∨ ∃ x, i = .ldF x)) : t.I = s.I :=
  exec_changesOnly h .index fun hc => hi ((mayChange_index_iff i).1 hc)

theorem exec_DISP (hi : ¬ (i = .cls ∨ ∃ x y n, i = .drw x y n)) : t.DISP = s.DISP :=
  Display.ext_lit fun cx cy => exec_changesOnly h (.pixel cx cy) fun hc => hi ((mayChange_pixel_iff i cx cy).1 hc)

/-- Memory as a whole stays, or is written at valid addresses by Fx33 or Fx55 (R36). -/
theorem exec_MEM : t.MEM = s.MEM ∨ ((∃ x, i = .bcd x) ∨ ∃ x, i = .stm x) ∧
    ∃ a xs, a + xs.length ≤ memSize ∧ t = s.writeBytes a xs := by
  cases i with
  | bcd x =>
    obtain ⟨ha, rfl⟩ := exec_bcd_eq_next_iff.1 h
    exact .inr ⟨.inl ⟨x, rfl⟩, _, _, ha, rfl⟩
  | stm x =>
    obtain ⟨ha, rfl⟩ := exec_stm_eq_next_iff.1 h
    exact .inr ⟨.inr ⟨x, rfl⟩, _, _, (regsUpTo_length s x).symm ▸ ha, rfl⟩
  | ret => obtain ⟨v, rest, -, rfl⟩ := exec_ret_eq_next_iff.1 h; exact .inl rfl
  | call nnn => obtain ⟨-, rfl⟩ := exec_call_eq_next_iff.1 h; exact .inl rfl
  | skp x => obtain ⟨k, -, rfl⟩ := exec_skp_eq_next_iff.1 h; exact .inl (skipIf_MEM _ s)
  | sknp x => obtain ⟨k, -, rfl⟩ := exec_sknp_eq_next_iff.1 h; exact .inl (skipIf_MEM _ s)
  | seImm x kk | sneImm x kk | seReg x y | sneReg x y => cases h; exact .inl (skipIf_MEM _ s)
  | ldVxKey x => cases h; exact .inl (by unfold keyWait; split <;> rfl)
  | ldm x => exact .inl (by rw [loadRegs_frame _ _ _ _ (exec_ldm_eq_next_iff.1 h)])
  | drw x y n => obtain ⟨g, -, rfl⟩ := exec_drw_eq_next_iff.1 h; exact .inl rfl
  | _ => cases h; exact .inl rfl

end

end Sys2Proof.Machine
end

section
/-! A Step from its dispatch: PC after it (R14), the components it may change (R11 to R18), and the invariant. -/

namespace Sys2Proof.Machine

/-! ### From a Step to its dispatch -/

/-- A Step of a machine that dispatches `i` completes with the end of `i`'s dispatch (R73). -/
theorem Dispatches.exec_of_step {s t : State} {i : Instr} (hd : Dispatches s i) (h : step s = .next t) :
    ∃ u, exec i s.beginStep = .next u ∧ t = s.endStep u := by
  obtain ⟨w, ⟨-, hf⟩, hw⟩ := hd
  obtain ⟨-, w', i', u, hf', hw', hu, rfl⟩ := step_eq_next_iff.1 h
  obtain rfl : w = w' := Option.some.inj (hf.symm.trans hf')
  obtain rfl : i = i' := Except.ok.inj (hw.symm.trans hw')
  exact ⟨u, hu, rfl⟩

/-- A Step that completes has dispatched an instruction. -/
theorem exists_dispatches_of_step {s t : State} (h : step s = .next t) : ∃ i, Dispatches s i := by
  obtain ⟨hs, w, i, u, hf, hw, -⟩ := step_eq_next_iff.1 h
  exact ⟨i, w, ⟨hs, hf⟩, hw⟩

/-- A machine that dispatches has fetched below 4095 (R67). -/
theorem Dispatches.pc_lt {s : State} {i : Instr} (hd : Dispatches s i) : s.PC.toNat < 4095 := by
  obtain ⟨w, ⟨-, hf⟩, -⟩ := hd
  have hpc := (fetch_eq_some_iff.1 hf).1
  unfold memSize at hpc
  omega

/-! ### PC -/

theorem immTarget_toNat (nnn : Imm12) : (immTarget nnn).toNat = nnn.toNat :=
  BitVec.toNat_setWidth_of_le (by decide)

/-- The target of Bnnn is at most 0x10FE, so the sum does not wrap (R88). -/
theorem offsetTarget_toNat (nnn : Imm12) (v : Byte) : (offsetTarget nnn v).toNat = nnn.toNat + v.toNat := by
  rw [offsetTarget, BitVec.toNat_ofNat, Nat.mod_eq_of_lt (by omega)]

/-- PC after a skip from the advanced PC: `pc_fetch + 4` or `pc_fetch + 2`, with no wrap (R14, R89). -/
theorem skipIf_PC_toNat {s t : State} (c : Bool) (ht : t.PC = s.PC + 2) (hs : s.PC.toNat < 4095) :
    (skipIf c t).PC.toNat = if c then s.PC.toNat + 4 else s.PC.toNat + 2 := by
  rw [skipIf_eq, State.setPC_PC, ht]
  cases c <;> simp <;> omega

/-- PC after a key wait: the advanced PC where a key is down, and back to the instruction where none is (R148). -/
theorem keyWait_PC (x : Reg) (s : State) : (keyWait x s).PC = if ∃ k, s.key k = true then s.PC else s.PC - 2 := by
  unfold keyWait
  cases hk : lowestKey s with
  | none => simp [lowestKey_eq_none_iff.1 hk]
  | some k =>
    obtain ⟨hlt, hkey, -⟩ := lowestKey_eq_some_iff.1 hk
    rw [if_pos ⟨_, hkey⟩, State.setReg_PC]

/-- Settles O12: the instructions of R14's table one by one, and for the rest the frame of the dispatch. -/
theorem programCounterAfterAStepIsAsTabled : Obligations.ProgramCounterAfterAStepIsAsTabled := by
  intro s t i hd h
  obtain ⟨u, hu, rfl⟩ := hd.exec_of_step h
  have hlt := hd.pc_lt
  have hpc := s.beginStep_PC
  rw [State.endStep_PC]
  cases i with
  | jp nnn => cases hu; exact immTarget_toNat nnn
  | call nnn => obtain ⟨-, rfl⟩ := exec_call_eq_next_iff.1 hu; exact immTarget_toNat nnn
  | jpV0 nnn => cases hu; simp [offsetTarget_toNat, pcAfter]
  | ret =>
    obtain ⟨v, rest, hS, rfl⟩ := exec_ret_eq_next_iff.1 hu
    rw [State.beginStep_S] at hS
    simp [pcAfter, hS]
  | seImm x kk | sneImm x kk | seReg x y | sneReg x y => cases hu; simp [skipIf_PC_toNat _ hpc hlt, pcAfter]
  | skp x =>
    obtain ⟨k, hk, rfl⟩ := exec_skp_eq_next_iff.1 hu
    rw [State.beginStep_reg] at hk
    simp [skipIf_PC_toNat _ hpc hlt, pcAfter, hk]
  | sknp x =>
    obtain ⟨k, hk, rfl⟩ := exec_sknp_eq_next_iff.1 hu
    rw [State.beginStep_reg] at hk
    simp [skipIf_PC_toNat _ hpc hlt, pcAfter, hk]
  | ldVxKey x =>
    cases hu
    simp only [keyWait_PC, State.beginStep_key, hpc, pcAfter]
    split <;> bv_omega
  | _ =>
    rw [exec_changesOnly hu .pc (by simp [MayChange]), hpc]
    show _ = s.PC.toNat + 2
    bv_omega

/-- The bound of R14 on PC: the largest target is Bnnn's, and a return goes to an address pushed by a call. -/
theorem pcAfter_le {s : State} {i : Instr} (hlt : s.PC.toNat < 4095) (hS : ∀ v ∈ s.S, v.toNat ≤ 4096) :
    pcAfter i s ≤ 0x10FE := by
  have hskip (c : Prop) [Decidable c] : (if c then s.PC.toNat + 4 else s.PC.toNat + 2) ≤ 0x10FE := by
    split <;> omega
  cases i with
  | jp nnn | call nnn | jpV0 nnn => simp only [pcAfter]; omega
  | ret =>
    simp only [pcAfter]
    cases hs : s.S with
    | nil => simp
    | cons v rest => exact (hS v (by simp [hs])).trans (by decide)
  | seImm x kk | sneImm x kk | seReg x y | sneReg x y | skp x | sknp x => exact hskip _
  | ldVxKey x => simp only [pcAfter]; split <;> omega
  | _ => simp only [pcAfter]; omega

/-! ### The invariant -/

/-- A dispatch leaves the stack as it was, or with the advanced PC on top and no more than its depth, or without its top. -/
theorem exec_S_cases {i : Instr} {s t : State} (h : exec i s = .next t) :
    t.S = s.S ∨ (s.S.length < s.config.stackDepth ∧ t.S = s.PC :: s.S) ∨ ∃ v, s.S = v :: t.S := by
  by_cases hi : i = .ret ∨ ∃ nnn, i = .call nnn
  · obtain rfl | ⟨nnn, rfl⟩ := hi
    · obtain ⟨v, rest, hS, rfl⟩ := exec_ret_eq_next_iff.1 h
      exact .inr (.inr ⟨v, hS⟩)
    · obtain ⟨hlt, rfl⟩ := exec_call_eq_next_iff.1 h
      exact .inr (.inl ⟨hlt, rfl⟩)
  · exact .inl (exec_S h hi)

/-- A dispatch keeps memory in canonical form. -/
theorem exec_keeps_wf {i : Instr} {s t : State} (h : exec i s = .next t) (hm : Memory.wf s.config s.MEM) :
    Memory.wf t.config t.MEM := by
  obtain hM | ⟨-, a, xs, ha, rfl⟩ := exec_MEM h
  · rw [exec_config h, hM]; exact hm
  · exact State.writeBytes_wf xs s a ha hm

/-- A dispatch keeps the stack within its depth. -/
theorem exec_keeps_stackBound {i : Instr} {s t : State} (h : exec i s = .next t)
    (hb : s.S.length ≤ s.config.stackDepth) : t.S.length ≤ t.config.stackDepth := by
  rw [exec_config h]
  obtain hS | ⟨hlt, hS⟩ | ⟨v, hS⟩ := exec_S_cases h
  · rw [hS]; exact hb
  · rw [hS]; exact hlt
  · rw [hS, List.length_cons] at hb; omega

/-- A dispatch keeps every return address at most 4096 where the advanced PC is. -/
theorem exec_keeps_returnAddresses {i : Instr} {s t : State} (h : exec i s = .next t) (hpc : s.PC.toNat ≤ 4096)
    (hr : ∀ v ∈ s.S, v.toNat ≤ 4096) : ∀ v ∈ t.S, v.toNat ≤ 4096 := by
  intro v hv
  obtain hS | ⟨-, hS⟩ | ⟨w, hS⟩ := exec_S_cases h
  · exact hr v (hS ▸ hv)
  · rw [hS] at hv
    obtain rfl | hv := List.mem_cons.1 hv
    · exact hpc
    · exact hr v hv
  · exact hr v (hS ▸ List.mem_cons_of_mem w hv)

/-- Settles O24, component by component, each from what the dispatch keeps of it; PC by the table of R14. -/
theorem everyStepKeepsTheInvariant : Obligations.EveryStepKeepsTheInvariant := by
  intro s t hinv h
  obtain ⟨hrun, hmem, hbound, hret, -⟩ := hinv
  obtain ⟨i, hd⟩ := exists_dispatches_of_step h
  have hpc : t.PC.toNat ≤ 0x10FE :=
    programCounterAfterAStepIsAsTabled s t i hd h ▸ pcAfter_le hd.pc_lt hret
  have hadvanced : s.beginStep.PC.toNat ≤ 4096 := by
    have hlt := hd.pc_lt
    rw [State.beginStep_PC]
    bv_omega
  obtain ⟨u, hu, rfl⟩ := hd.exec_of_step h
  have hstatus : u.status = .running := (exec_status hu).trans (s.beginStep_status.trans hrun)
  have hwf : Memory.wf u.config u.MEM := exec_keeps_wf hu (by simpa using hmem)
  have hdepth : u.S.length ≤ u.config.stackDepth := exec_keeps_stackBound hu (by simpa using hbound)
  have haddresses : ∀ v ∈ u.S, v.toNat ≤ 4096 := exec_keeps_returnAddresses hu hadvanced (by simpa using hret)
  exact ⟨hstatus, hwf, hdepth, haddresses, hpc⟩

/-! ### A Step's components -/

/-- Settles O9: the status decides, and no dispatch changes it. -/
theorem faultedMachineHasNoStep : Obligations.FaultedMachineHasNoStep := by
  have hfaulted (s : State) (r : FaultRecord) (hs : s.status = .faulted r) : step s = .fault (.noStep r) :=
    step_eq_fault_iff.2 (.inl ⟨r, hs, rfl⟩)
  refine ⟨hfaulted, fun s t h => ?_, fun s f => hfaulted _ _ (s.enterFaulted_status f)⟩
  obtain ⟨hrun, w, i, u, -, -, hu, rfl⟩ := step_eq_next_iff.1 h
  exact (exec_status hu).trans (s.beginStep_status.trans hrun)

/-- Settles O20, from what a dispatch may change. -/
theorem eachComponentChangesOnlyByItsInstructions : Obligations.EachComponentChangesOnlyByItsInstructions := by
  intro s t i hd h
  obtain ⟨u, hu, rfl⟩ := hd.exec_of_step h
  refine ⟨?_, fun hbcd hstm => ?_, fun hcls hdrw => ?_, fun hret hcall => ?_, fun hldI haddI hldF => ?_⟩
  · exact (exec_config hu).trans s.beginStep_config
  · obtain hM | ⟨⟨x, hi⟩ | ⟨x, hi⟩, -⟩ := exec_MEM hu
    · exact hM.trans s.beginStep_MEM
    · exact absurd hi (hbcd x)
    · exact absurd hi (hstm x)
  · exact (exec_DISP hu (by simp [hcls, hdrw])).trans s.beginStep_DISP
  · exact (exec_S hu (by simp [hret, hcall])).trans s.beginStep_S
  · exact (exec_I hu (by simp [hldI, haddI, hldF])).trans s.beginStep_I

/-- Settles O21, from the registers a dispatch may change. -/
theorem registersChangeOnlyByTheirInstructions : Obligations.RegistersChangeOnlyByTheirInstructions := by
  intro s t i r hd h hr
  obtain ⟨u, hu, rfl⟩ := hd.exec_of_step h
  exact (exec_reg hu hr).trans (s.beginStep_reg r)

/-! ### The flag register -/

theorem flagByte_toNat (b : Bool) : (flagByte b).toNat = if b then 1 else 0 := by cases b <;> rfl

/-- After a write of the flag VF holds it, whatever was written before (R113). -/
theorem setVF_VF_toNat (s : State) (b : Bool) : ((s.setVF b).reg 0xF).toNat = if b then 1 else 0 := by
  rw [← flagByte_toNat]
  exact congrArg BitVec.toNat (State.reg_setVF_same s b)

theorem shiftedOutRight_toNat (v : Byte) : (if shiftedOutRight v then 1 else 0) = v.toNat % 2 := by
  unfold shiftedOutRight
  rw [← BitVec.testBit_toNat, Nat.testBit_zero]
  obtain h | h := Nat.mod_two_eq_zero_or_one v.toNat <;> simp [h]

theorem shiftedOutLeft_toNat (v : Byte) : (if shiftedOutLeft v then 1 else 0) = v.toNat / 128 := by
  unfold shiftedOutLeft
  have h : v.getLsbD 7 = decide (v.toNat / 128 = 1) := by
    rw [← BitVec.testBit_toNat, Nat.testBit_eq_decide_div_mod_eq]
    congr 2
    omega
  rw [h]
  split <;> simp_all
  omega

/-- A draw leaves a pixel unlit that was lit exactly where its sprite has a 1 for a lit pixel, which is a collision (R136). -/
theorem drawRows_hit_iff {s : State} {x0 y0 n : Nat} {g : Drawing}
    (h : drawRows s x0 y0 n 0 ⟨s.DISP, false⟩ = .ok g) :
    g.hit = true ↔ ∃ cx cy, s.pixel cx cy = true ∧ Display.lit g.disp cx cy = false := by
  have hflip (cx cy) (hs : s.pixel cx cy = true) :
      Display.lit g.disp cx cy = false ↔ spritePixel s x0 y0 (0 + n) cx cy = true ∧ y0 + 0 ≤ cy.val := by
    rw [lit_drawRows s x0 y0 cx cy n 0 _ g h]
    change (s.pixel cx cy ^^ _) = false ↔ _
    simp [hs, and_comm]
  rw [hit_drawRows s x0 y0 n 0 _ g h]
  simp only [Bool.false_eq_true, false_or]
  constructor
  · rintro ⟨cx, cy, hy, hp, hs⟩
    exact ⟨cx, cy, hs, (hflip cx cy hs).2 ⟨hp, hy⟩⟩
  · rintro ⟨cx, cy, hs, hl⟩
    obtain ⟨hp, hy⟩ := (hflip cx cy hs).1 hl
    exact ⟨cx, cy, hy, hp, hs⟩

/-- Settles O22: the seven flag writers one by one, and for the rest the frame of the dispatch. -/
theorem flagRegisterReceivesTheTabledValue : Obligations.FlagRegisterReceivesTheTabledValue := by
  intro i s t h
  cases i with
  | addReg x y => cases h; simp [FlagAfter, setVF_VF_toNat, carryOfAdd]
  | subReg x y | subnReg x y => cases h; simp [FlagAfter, setVF_VF_toNat, noBorrow]
  | addI x => cases h; simp [FlagAfter, setVF_VF_toNat, carryOfIndex]
  | shr x y => cases h; exact (setVF_VF_toNat _ _).trans (shiftedOutRight_toNat _)
  | shl x y => cases h; exact (setVF_VF_toNat _ _).trans (shiftedOutLeft_toNat _)
  | drw x y n =>
    obtain ⟨g, hg, rfl⟩ := exec_drw_eq_next_iff.1 h
    have hVF : (s.withDrawing g).reg 0xF = flagByte g.hit := State.reg_setVF_same _ _
    have hbit : flagByte g.hit = 0 ∨ flagByte g.hit = 1 := by cases g.hit <;> simp [flagByte]
    have hset : flagByte g.hit = 1 ↔ g.hit = true := by cases g.hit <;> simp [flagByte]
    exact ⟨hVF ▸ hbit, hVF ▸ hset.trans (drawRows_hit_iff hg)⟩
  | _ => exact exec_reg h

end Sys2Proof.Machine
end

section
/-! Where outputs and inputs reach (R19 to R23), the uniqueness of memory's canonical form, and reset (R26, R190). -/

namespace Sys2Proof.Machine

/-! ### Outputs -/

/-- The dispatch starts with no output given, whatever the outputs of the Step before (R73). -/
theorem State.beginStep_setOutput (s : State) (o : StepOutput) : (s.setOutput o).beginStep = s.beginStep := by
  rw [State.beginStep_eq, State.beginStep_eq]
  rfl

/-- The end of a Step reads the display of the state before it, and no output of that state (R72). -/
theorem finishStep_setOutput (s : State) (o : StepOutput) (r : Host.Outcome State Fault Refusal) :
    finishStep (s.setOutput o) r = finishStep s r := by
  cases r <;> rfl

/-- Settles O18: status, fetch, start and end of a Step do not read the outputs. -/
theorem outputsNeverInfluenceAStep : Obligations.OutputsNeverInfluenceAStep := by
  intro s o
  have hfetch : fetch (s.setOutput o) = fetch s := rfl
  simp only [step, hfetch, fetchFault, State.setOutput_status, State.setOutput_PC, State.beginStep_setOutput,
    finishStep_setOutput]

/-! ### Inputs -/

/-- The state with other inputs pending and to come. -/
def State.withInputs (s : State) (pending : List StepInput) (drawIndex : Nat) : State :=
  { s with pending := pending, drawIndex := drawIndex }

section
variable (p : List StepInput) (d : Nat)

@[simp] theorem State.withInputs_reg (s : State) (r : Reg) : (s.withInputs p d).reg r = s.reg r := rfl
@[simp] theorem State.withInputs_S (s : State) : (s.withInputs p d).S = s.S := rfl
@[simp] theorem State.withInputs_config (s : State) : (s.withInputs p d).config = s.config := rfl
@[simp] theorem State.withInputs_DISP (s : State) : (s.withInputs p d).DISP = s.DISP := rfl

@[simp] theorem effectiveAddress_withInputs (s : State) (i : Nat) :
    effectiveAddress (s.withInputs p d) i = effectiveAddress s i := rfl

@[simp] theorem memRead_withInputs (s : State) (a : Nat) : memRead (s.withInputs p d) a = memRead s a := rfl

theorem skipIf_withInputs (c : Bool) (s : State) : skipIf c (s.withInputs p d) = (skipIf c s).withInputs p d := by
  cases c <;> rfl

theorem storeBytes_withInputs (xs : List Byte) : ∀ (s : State) (a : Nat),
    storeBytes (s.withInputs p d) a xs = (storeBytes s a xs).map (·.withInputs p d) := by
  induction xs with
  | nil => intro s a; rfl
  | cons x xs ih =>
    intro s a
    by_cases ha : a < memSize
    · simp only [storeBytes, memWrite, ha, if_true]
      exact ih (s.writeByte a x) (a + 1)
    · simp [storeBytes, memWrite, ha, Except.map]

theorem loadRegs_withInputs : ∀ (count i : Nat) (s : State),
    loadRegs count i (s.withInputs p d) = (loadRegs count i s).map (·.withInputs p d) := by
  intro count
  induction count with
  | zero => intro i s; rfl
  | succ count ih =>
    intro i s
    rw [loadRegs, loadRegs, effectiveAddress_withInputs, memRead_withInputs]
    cases memRead s (effectiveAddress s i) with
    | error e => rfl
    | ok b => exact ih (i + 1) (s.setReg (Fin.ofNat 16 i) b)

theorem drawRows_withInputs (s : State) (x0 y0 : Nat) : ∀ (count i : Nat) (g : Drawing),
    drawRows (s.withInputs p d) x0 y0 count i g = drawRows s x0 y0 count i g := by
  intro count
  induction count with
  | zero => intro i g; rfl
  | succ count ih =>
    intro i g
    simp only [drawRows, effectiveAddress_withInputs, memRead_withInputs, ih]

theorem orMemoryFault_withInputs (s : State) (w : Word) (r : Except Nat State) :
    orMemoryFault (s.withInputs p d) w (r.map (·.withInputs p d)) = mapNext (·.withInputs p d) (orMemoryFault s w r) := by
  cases r <;> rfl

/-- The outcome of an instruction carries other inputs along and is otherwise the same. -/
def IgnoresInputs (i : Instr) (s : State) : Prop :=
  exec i (s.withInputs p d) = mapNext (·.withInputs p d) (exec i s)

theorem exec_drw_ignoresInputs (x y : Reg) (n : Height) (s : State) : IgnoresInputs p d (.drw x y n) s := by
  show execDrw x y n (s.withInputs p d) = mapNext _ (execDrw x y n s)
  unfold execDrw
  rw [drawRows_withInputs, State.withInputs_reg, State.withInputs_reg, State.withInputs_DISP]
  cases drawRows s (startColumn (s.reg x)) (startRow (s.reg y)) n.val 0 ⟨s.DISP, false⟩ <;> rfl

/-- An instruction that reads neither the keys nor the random byte ignores the inputs (R19, R20). -/
theorem exec_ignoresInputs {i : Instr} (s : State)
    (hkeys : ¬ ((∃ x, i = .skp x) ∨ (∃ x, i = .sknp x) ∨ ∃ x, i = .ldVxKey x))
    (hrandom : ¬ ∃ x kk, i = .rnd x kk) : IgnoresInputs p d i s := by
  cases i with
  | skp x => exact absurd (.inl ⟨x, rfl⟩) hkeys
  | sknp x => exact absurd (.inr (.inl ⟨x, rfl⟩)) hkeys
  | ldVxKey x => exact absurd (.inr (.inr ⟨x, rfl⟩)) hkeys
  | rnd x kk => exact absurd ⟨x, kk, rfl⟩ hrandom
  | seImm x kk | sneImm x kk | seReg x y | sneReg x y => exact congrArg _ (skipIf_withInputs p d _ s)
  | ret =>
    show execRet (s.withInputs p d) = mapNext _ (execRet s)
    unfold execRet pop
    rw [State.withInputs_S]
    cases s.S <;> rfl
  | call nnn =>
    show execCall nnn (s.withInputs p d) = mapNext _ (execCall nnn s)
    unfold execCall push
    rw [State.withInputs_S, State.withInputs_config]
    by_cases hlt : s.S.length < s.config.stackDepth
    · rw [if_pos hlt, if_pos hlt]; rfl
    · rw [if_neg hlt, if_neg hlt]; rfl
  | bcd x | stm x =>
    exact (congrArg _ (storeBytes_withInputs p d _ s _)).trans (orMemoryFault_withInputs p d s _ _)
  | ldm x =>
    exact (congrArg _ (loadRegs_withInputs p d _ _ s)).trans (orMemoryFault_withInputs p d s _ _)
  | drw x y n => exact exec_drw_ignoresInputs p d x y n s
  | _ => rfl

/-- A key skip reads no input but the key its register names (R145, R146). -/
theorem exec_keySkips_ignoreInputs (x : Reg) {s : State} (hk : ∀ k, (s.withInputs p d).key k = s.key k) :
    IgnoresInputs p d (.skp x) s ∧ IgnoresInputs p d (.sknp x) s := by
  show execSkp x (s.withInputs p d) = mapNext _ (execSkp x s) ∧ execSknp x (s.withInputs p d) = mapNext _ (execSknp x s)
  unfold execSkp execSknp
  rw [State.withInputs_reg]
  cases keyIndex (s.reg x) with
  | none => exact ⟨rfl, rfl⟩
  | some k => simp only [hk, skipIf_withInputs, mapNext, and_self]

/-- The lowest pressed key is a matter of the keys alone (R148). -/
theorem lowestKey_congr {s t : State} (hk : ∀ k, t.key k = s.key k) : lowestKey t = lowestKey s := by
  refine Option.ext fun k => ?_
  simp only [lowestKey_eq_some_iff, hk]

theorem exec_ldVxKey_ignoresInputs (x : Reg) {s : State} (hk : ∀ k, (s.withInputs p d).key k = s.key k) :
    IgnoresInputs p d (.ldVxKey x) s := by
  show execLdVxKey x (s.withInputs p d) = mapNext _ (execLdVxKey x s)
  unfold execLdVxKey keyWait
  rw [lowestKey_congr hk]
  cases lowestKey s <;> rfl

theorem exec_rnd_ignoresInputs (x : Reg) (kk : Byte) {s : State} (hr : (s.withInputs p d).rnd = s.rnd) :
    IgnoresInputs p d (.rnd x kk) s := by
  show execRnd x kk (s.withInputs p d) = mapNext _ (execRnd x kk s)
  unfold execRnd
  rw [hr]
  rfl

end

/-- Settles O19: the three key instructions and Cxkk one by one, the rest by what ignores the inputs. -/
theorem inputsReachOnlyKeyAndRandomInstructions : Obligations.InputsReachOnlyKeyAndRandomInstructions := by
  intro i s p d s' sameOutcome readsKeys readsRandom
  have hneither : ¬ readsKeys → ¬ readsRandom → sameOutcome := exec_ignoresInputs p d s
  refine ⟨fun hrandom hk => ?_, fun hkeys hr => ?_, hneither⟩
  · by_cases hkeys : readsKeys
    · obtain ⟨x, rfl⟩ | ⟨x, rfl⟩ | ⟨x, rfl⟩ := hkeys
      · exact (exec_keySkips_ignoreInputs p d x hk).1
      · exact (exec_keySkips_ignoreInputs p d x hk).2
      · exact exec_ldVxKey_ignoresInputs p d x hk
    · exact hneither hkeys hrandom
  · by_cases hrandom : readsRandom
    · obtain ⟨x, kk, rfl⟩ := hrandom
      exact exec_rnd_ignoresInputs p d x kk hr
    · exact hneither hkeys hrandom

/-- Settles O11, by the two modes. -/
theorem tickEnableFollowsTheMode : Obligations.TickEnableFollowsTheMode := by
  refine fun s => ⟨fun hper => ?_, fun hext i => ?_⟩
  · simp only [State.tickEn, hper]
  · simp only [State.tickEn, State.offerInput_config, hext, State.offerInput_input]

/-! ### The canonical form of memory -/

/-- In a list of strictly rising addresses the byte found at an address is the one listed there. -/
theorem Memory.entry_eq_some_iff {m : Memory} (h : m.Pairwise (fun p q => p.1 < q.1)) {a : Nat} {v : Byte} :
    Memory.entry m a = some v ↔ (a, v) ∈ m := by
  induction m with
  | nil => simp [Memory.entry]
  | cons e rest ih =>
    obtain ⟨b, w⟩ := e
    obtain ⟨hfirst, hrest⟩ := List.pairwise_cons.1 h
    unfold Memory.entry
    by_cases hba : b = a
    · subst hba
      have hnot : (b, v) ∉ rest := fun hm => Nat.lt_irrefl b (hfirst _ hm)
      simp [hnot, eq_comm]
    · simp [hba, Ne.symm hba, ih hrest]

/-- In canonical form a byte is listed exactly where it is read and is not the reset contents. -/
theorem Memory.mem_iff_of_wf {c : Config} {m : Memory} (h : Memory.wf c m) {a : Nat} {v : Byte} :
    (a, v) ∈ m ↔ Memory.read c m a = v ∧ v ≠ resetByte c a := by
  obtain ⟨hsorted, hvalid⟩ := h
  unfold Memory.read
  cases he : Memory.entry m a with
  | none =>
    have hnot : (a, v) ∉ m := fun hm => by simp [(Memory.entry_eq_some_iff hsorted).2 hm] at he
    simp only [hnot, Option.getD_none, false_iff]
    exact fun hr => hr.2 hr.1.symm
  | some w =>
    have hw := (Memory.entry_eq_some_iff hsorted).1 he
    rw [← Memory.entry_eq_some_iff hsorted, he, Option.some.injEq, Option.getD_some]
    exact ⟨fun hwv => ⟨hwv, hwv ▸ (hvalid _ hw).2⟩, And.left⟩

/-- Settles O28: the two lists have the same members, and each is in the order of its addresses. -/
theorem canonicalMemoriesThatReadAlikeAreEqual : Obligations.CanonicalMemoriesThatReadAlikeAreEqual := by
  intro c m m' h h' hread
  have : Std.Irrefl (fun p q : Host.Cell => p.1 < q.1) := ⟨fun p => Nat.lt_irrefl p.1⟩
  have : Std.Antisymm (fun p q : Host.Cell => p.1 < q.1) := ⟨fun p q hpq hqp => absurd hqp (Nat.lt_asymm hpq)⟩
  refine h.1.eq_of_mem_iff h'.1 fun ⟨a, v⟩ => ?_
  rw [Memory.mem_iff_of_wf h, Memory.mem_iff_of_wf h', hread a]

/-! ### Reset -/

/-- Settles O23: memory lists nothing and the stack is empty. -/
theorem resetMeetsTheInvariant : Obligations.ResetMeetsTheInvariant := fun c =>
  { running := State.resetWith_status c
    memory := by simp [Memory.wf]
    stackBound := by simp
    returnAddresses := by simp
    pcBound := by simp [resetPC] }

/-- Settles O25, component by component from what reset leaves; memory from its reset contents. -/
theorem resetLeavesTheTabledValues : Obligations.ResetLeavesTheTabledValues := by
  intro s t
  refine ⟨s.reapplyReset_reg, rfl, rfl, rfl, rfl, rfl, rfl, s.reapplyReset_pixel, fun k => ?_, fun a ha => ?_,
    rfl, rfl, rfl, rfl, rfl⟩
  · exact (s.reapplyReset_readByte _).trans (resetByte_font s.config k)
  · exact (s.reapplyReset_readByte a).trans (resetByte_fill s.config a ha)

end Sys2Proof.Machine
end

section
/-! Memory as the fetch, the checked accesses and the block store see it (20_memory.md R31 to R42, 40_step_cycle.md R67), and
the one fault that each instruction can raise (60_exceptions.md R161). -/

namespace Sys2Proof.Machine

/-! ### The fault of a dispatch -/

theorem orMemoryFault_eq_fault_iff {s : State} {w : Word} {result : Except Nat State} {f : Fault} :
    orMemoryFault s w result = .fault f ↔ ∃ a, result = .error a ∧ f = .memoryOutOfBounds w (s.PC - 2) a := by
  cases result <;> simp [orMemoryFault, raise, State.pcFetch, eq_comm]

/-- A block store that fails reports its first invalid address (R166). -/
theorem error_of_storeBytes {s : State} {a e : Nat} {xs : List Byte} (h : storeBytes s a xs = .error e) :
    e = max a memSize := by
  rw [storeBytes_eq] at h
  split at h
  · cases h
  · exact (Except.error.inj h).symm

/-- What answers a value where a condition holds, and otherwise the one error, answers no other error. -/
theorem error_of_completes {α : Type} {c : Prop} {result : Except Nat α} {a e : Nat}
    (hc : (c → ∃ t, result = .ok t) ∧ (¬ c → result = .error a)) (h : result = .error e) : e = a := by
  have hnot : ¬ c := fun hcond => by
    obtain ⟨t, ht⟩ := hc.1 hcond
    cases ht.symm.trans h
  exact Except.error.inj (h.symm.trans (hc.2 hnot))

/-- A block load that fails reports its first invalid address (R166). -/
theorem error_of_loadRegs {s : State} {count i e : Nat} (h : loadRegs count i s = .error e) :
    e = max (effectiveAddress s i) memSize :=
  error_of_completes (loadRegs_completes count i s) h

/-- A draw that fails reports its first invalid address (R166). -/
theorem error_of_drawRows {s : State} {x0 y0 count i e : Nat} {g : Drawing} (hi : y0 + i ≤ 32)
    (h : drawRows s x0 y0 count i g = .error e) : e = max (effectiveAddress s i) memSize :=
  error_of_completes (drawRows_completes s x0 y0 count i g hi) h

/-- A dispatch that faults raises the one fault its instruction can raise (R161). -/
theorem eq_faultOf_of_exec {i : Instr} {s : State} {f : Fault} (h : exec i s = .fault f) : f = faultOf i s := by
  cases i with
  | ret | call nnn | skp x | sknp x =>
    simp only [exec, execRet, execCall, execSkp, execSknp] at h
    split at h
    · exact (Host.Outcome.fault.inj h).symm
    · cases h
  | bcd x | stm x =>
    obtain ⟨a, ha, rfl⟩ := orMemoryFault_eq_fault_iff.1 h
    rw [error_of_storeBytes ha]
    rfl
  | ldm x =>
    obtain ⟨a, ha, rfl⟩ := orMemoryFault_eq_fault_iff.1 h
    rw [error_of_loadRegs ha]
    rfl
  | drw x y n =>
    obtain ⟨a, ha, rfl⟩ := orMemoryFault_eq_fault_iff.1 h
    split at ha
    · cases ha
    next e he =>
      obtain rfl : e = a := Except.error.inj ha
      have hrow : startRow (s.reg y) + 0 ≤ 32 := (Nat.mod_lt _ (by decide)).le
      rw [error_of_drawRows hrow he]
      rfl
  | _ => cases h

theorem faultOf_ne_fetchOutOfBounds (i : Instr) (s : State) (pc : Word) : faultOf i s ≠ .fetchOutOfBounds pc := by
  cases i <;> simp [faultOf]

/-! ### The fetch -/

/-- A Step raises `FetchOutOfBounds` exactly when a running machine has no word to fetch, and reports PC (R67, R162). -/
theorem step_eq_fetchOutOfBounds_iff {s : State} {pc : Word} :
    step s = .fault (.fetchOutOfBounds pc) ↔ s.status = .running ∧ fetch s = none ∧ pc = s.PC := by
  rw [step_eq_fault_iff]
  constructor
  · rintro (⟨r, -, h⟩ | ⟨hrun, hf, h⟩ | ⟨-, w, e, -, -, h⟩ | ⟨-, w, i, -, -, h⟩)
    · cases h
    · exact ⟨hrun, hf, Fault.fetchOutOfBounds.inj h⟩
    · cases h
    · exact absurd (eq_faultOf_of_exec h).symm (faultOf_ne_fetchOutOfBounds i _ pc)
  · rintro ⟨hrun, hf, rfl⟩
    exact .inr (.inl ⟨hrun, hf, rfl⟩)

/-- Settles O8: PC decides whether there is a word to fetch, and a Step without one is the only one to raise the fault. -/
theorem fetchReadsBigEndianBelow4095AndFaultsAbove : Obligations.FetchReadsBigEndianBelow4095AndFaultsAbove := by
  refine fun s hrun => ⟨fun hpc => ?_, fun hpc => ?_⟩
  · have hnone : fetch s = none := fetch_eq_none_iff.2 (Nat.succ_le_succ hpc)
    exact step_eq_fetchOutOfBounds_iff.2 ⟨hrun, hnone, rfl⟩
  · have hword : fetch s = some _ := fetch_eq_some_iff.2 ⟨Nat.succ_lt_succ hpc, rfl⟩
    refine ⟨⟨_, hword, joinBytes_toNat _ _⟩, fun pc hfault => ?_⟩
    obtain ⟨-, hnone, -⟩ := step_eq_fetchOutOfBounds_iff.1 hfault
    cases hnone.symm.trans hword

/-! ### The checked accesses -/

/-- A write of a byte changes that byte only (R31). -/
theorem changesOnly_writeByte (s : State) (a : Nat) (v : Byte) :
    ChangesOnly (fun p => p = .byte a) s (s.writeByte a v) := by
  refine (changesOnly_writeBytes s a [v]).mono ?_
  rintro p ⟨k, hk, rfl⟩
  obtain rfl : k = 0 := Nat.lt_one_iff.1 hk
  rfl

/-- Settles O27: the address decides, and a write changes its one cell. -/
theorem memoryReadsBackWhatWasWritten : Obligations.MemoryReadsBackWhatWasWritten := by
  refine fun s a v => ⟨fun ha => ⟨memRead_error_iff.2 ⟨ha, rfl⟩, memWrite_error_iff.2 ⟨ha, rfl⟩⟩, fun ha => ?_⟩
  have hread : (s.writeByte a v).readByte a = v := (s.readByte_writeByte a a v).trans (if_pos rfl)
  exact ⟨memRead_ok_iff.2 ⟨ha, rfl⟩, _, memWrite_ok_iff.2 ⟨ha, rfl⟩, hread, changesOnly_writeByte s a v⟩

/-! ### Storing what is fetched -/

/-- Fx55 leaves each of its registers at a valid address, `I` and its number (R124). -/
theorem readByte_of_exec_stm {x r : Reg} {s t : State} (h : exec (.stm x) s = .next t) (hr : r ≤ x) :
    effectiveAddress s r.val < memSize ∧ t.readByte (effectiveAddress s r.val) = s.reg r := by
  obtain ⟨hbound, rfl⟩ := exec_stm_eq_next_iff.1 h
  have hle : r.val ≤ x.val := hr
  have haddress : effectiveAddress s r.val = effectiveAddress s 0 + r.val := rfl
  refine ⟨by omega, ?_⟩
  rw [State.readByte_writeBytes, haddress, if_pos (Nat.le_add_right _ _), Nat.add_sub_cancel_left,
    regsUpTo_getElem? s x r hr, Option.getD_some]

/-- Settles O29: the two registers stand at PC and PC + 1, and the store leaves PC alone. -/
theorem storedBytesAreFetchedAtOnce : Obligations.StoredBytesAreFetchedAtOnce := by
  intro s t x k l h hl hlk hpc
  have hk : k ≤ x := (Fin.le_def.2 (by omega : k.val ≤ l.val)).trans hl
  have hPC : t.PC = s.PC := exec_changesOnly h .pc (by simp [MayChange])
  have hnext : s.PC.toNat + 1 = effectiveAddress s l.val := by
    rw [hpc, hlk]
    rfl
  obtain ⟨-, hhigh⟩ := readByte_of_exec_stm h hk
  obtain ⟨hbound, hlow⟩ := readByte_of_exec_stm h hl
  rw [fetch_eq_some_iff, hPC, hnext, hpc, hhigh, hlow]
  exact ⟨hbound, rfl⟩

end Sys2Proof.Machine
end

section
/-! The decoder and the encoder are inverse to each other, and the decoder rejects only words of the six illegal sets
(30_encoding.md R50 to R59). -/

namespace Sys2Proof.Machine

/-! ### Decoding an instruction's word -/

theorem fieldX_ne_zero_iff (w : Word) : fieldX w ≠ 0 ↔ w.toNat / 256 % 16 ≠ 0 := by
  rw [← fieldX_val, ne_eq, Fin.ext_iff]
  rfl

/-- R57: an immediate has `instr[11:8] != 0` exactly from 0x100 up. -/
theorem wellFormed_sysnop_iff (nnn : Imm12) : (Instr.sysnop nnn).wellFormed = true ↔ 0x100 ≤ nnn.toNat := by
  have hlt := nnn.isLt
  have hx : (nnn.extractLsb' 8 4).toNat = nnn.toNat / 256 := by
    rw [BitVec.extractLsb'_toNat, Nat.shiftRight_eq_div_pow]
    omega
  simp only [Instr.wellFormed, bne_iff_ne, ne_eq, ← BitVec.toNat_inj, hx, BitVec.toNat_ofNat]
  omega

theorem decodeWord_sysnop {nnn : Imm12} (h : 0x100 ≤ nnn.toNat) : decodeWord (wordNNN 0x0#4 nnn) = .ok (.sysnop nnn) := by
  have hx : fieldX (wordNNN 0x0#4 nnn) ≠ 0 := by
    rw [fieldX_ne_zero_iff, wordNNN_toNat, BitVec.toNat_ofNat]
    omega
  simp [decodeWord, decodeFamily0, hx]

/-- The decoder reads an instruction from its word: the family and the sub-opcode select its arm, and the fields of the word
are its operands (R52, R54, R55). -/
theorem decodeWord_encode {i : Instr} (h : i.wellFormed = true) : decodeWord (encode i) = .ok i := by
  cases i with
  | cls | ret => decide
  | sysnop nnn => exact decodeWord_sysnop ((wellFormed_sysnop_iff nnn).1 h)
  | jp nnn | call nnn | ldI nnn | jpV0 nnn => simp [encode, decodeWord]
  | seImm x kk | sneImm x kk | ldImm x kk | addImm x kk | rnd x kk => simp [encode, decodeWord]
  | seReg x y | sneReg x y | drw x y n => simp [encode, decodeWord]
  | skp x | sknp x => simp [encode, decodeWord, decodeFamilyE]
  | ldVxDt x | ldVxKey x | ldDtVx x | ldStVx x | addI x | ldF x | bcd x | stm x | ldm x =>
    simp [encode, decodeWord, decodeFamilyF]
  | _ => simp [encode, decodeWord, decodeFamily8]

/-- Settles O1: the two bytes are the instruction's word again, and the decoder reads the instruction from it. -/
theorem decodeOfEncodeIsTheInstruction : Obligations.DecodeOfEncodeIsTheInstruction := by
  intro i rest h
  simp [encodeBytes, decode, decodeWord_encode h]

/-- Settles O6, by evaluation. -/
theorem sampleWordsDecodeAsThePatternsSay : Obligations.SampleWordsDecodeAsThePatternsSay := by
  unfold Obligations.SampleWordsDecodeAsThePatternsSay
  decide

/-! ### Every answer of the decoder -/

/-- The six illegal sets of R56 by the fields of a word. -/
theorem illegalWord_iff {w : Word} : IllegalWord w ↔
    (fieldFamily w = 0x0#4 ∧ fieldX w = 0 ∧ fieldKk w ∉ [0xE0#8, 0xEE#8]) ∨
    (fieldFamily w = 0x5#4 ∧ fieldN w ≠ 0x0#4) ∨
    (fieldFamily w = 0x8#4 ∧ fieldN w ∈ [0x8#4, 0x9#4, 0xA#4, 0xB#4, 0xC#4, 0xD#4, 0xF#4]) ∨
    (fieldFamily w = 0x9#4 ∧ fieldN w ≠ 0x0#4) ∨
    (fieldFamily w = 0xE#4 ∧ fieldKk w ∉ [0x9E#8, 0xA1#8]) ∨
    (fieldFamily w = 0xF#4 ∧
      fieldKk w ∉ [0x07#8, 0x0A#8, 0x15#8, 0x18#8, 0x1E#8, 0x29#8, 0x33#8, 0x55#8, 0x65#8]) := by
  have hx : fieldX w = 0 ↔ w.toNat / 256 % 16 = 0 := not_iff_not.1 (fieldX_ne_zero_iff w)
  simp only [IllegalWord, hx, List.mem_cons, List.not_mem_nil, or_false, ne_eq, ← BitVec.toNat_inj, fieldFamily_toNat,
    fieldN_toNat, fieldKk_toNat, BitVec.toNat_ofNat]
  refine or_congr ?_ Iff.rfl
  omega

/-- What R54 to R57 ask of the decoder's answer to a word: an instruction it gives is well-formed and has that word, and a
word it rejects is illegal. -/
def AnswersFor (w : Word) : Except Reject Instr → Prop
  | .ok i => encode i = w ∧ i.wellFormed = true
  | .error _ => IllegalWord w

section
variable {w : Word} {f : BitVec 4} (hf : fieldFamily w = f)
include hf

theorem wordNNN_of_family : wordNNN f (fieldNnn w) = w := hf ▸ wordNNN_fields w

theorem wordXKK_of_fields {kk : Byte} (hkk : fieldKk w = kk) : wordXKK f (fieldX w) kk = w :=
  hf ▸ hkk ▸ wordXKK_fields w

theorem wordXYN_of_fields {n : BitVec 4} (hn : fieldN w = n) : wordXYN f (fieldX w) (fieldY w) n = w :=
  hf ▸ hn ▸ wordXYN_fields w

end

theorem decodeFamily0_answersFor {w : Word} (hf : fieldFamily w = 0x0#4) : AnswersFor w (decodeFamily0 w) := by
  unfold decodeFamily0
  by_cases hx : fieldX w ≠ 0
  · have hwf : 0x100 ≤ (fieldNnn w).toNat := by
      rw [fieldX_ne_zero_iff] at hx
      rw [fieldNnn_toNat]
      omega
    rw [if_pos hx]
    exact ⟨wordNNN_of_family hf, (wellFormed_sysnop_iff _).2 hwf⟩
  · have hw {kk : Byte} (hkk : fieldKk w = kk) : wordXKK 0x0#4 0 kk = w :=
      not_not.1 hx ▸ wordXKK_of_fields hf hkk
    rw [if_neg hx]
    split
    next hE0 => exact ⟨hw hE0, rfl⟩
    next hEE => exact ⟨hw hEE, rfl⟩
    next hE0 hEE =>
      have hnone : fieldKk w ∉ [0xE0#8, 0xEE#8] := by simpa using ⟨hE0, hEE⟩
      exact illegalWord_iff.2 (.inl ⟨hf, not_not.1 hx, hnone⟩)

theorem decodeFamily8_answersFor {w : Word} (hf : fieldFamily w = 0x8#4) : AnswersFor w (decodeFamily8 w) := by
  unfold decodeFamily8
  split
  case h_10 =>
    have hrest : ∀ n : BitVec 4, n ∉ [0x0#4, 0x1#4, 0x2#4, 0x3#4, 0x4#4, 0x5#4, 0x6#4, 0x7#4, 0xE#4] →
      n ∈ [0x8#4, 0x9#4, 0xA#4, 0xB#4, 0xC#4, 0xD#4, 0xF#4] := by decide
    have hnone : fieldN w ∉ [0x0#4, 0x1#4, 0x2#4, 0x3#4, 0x4#4, 0x5#4, 0x6#4, 0x7#4, 0xE#4] := by
      simp only [List.mem_cons, List.not_mem_nil, or_false, not_or]
      and_intros <;> assumption
    exact illegalWord_iff.2 (.inr (.inr (.inl ⟨hf, hrest _ hnone⟩)))
  all_goals
    next hn => exact ⟨wordXYN_of_fields hf hn, rfl⟩

theorem decodeFamilyE_answersFor {w : Word} (hf : fieldFamily w = 0xE#4) : AnswersFor w (decodeFamilyE w) := by
  unfold decodeFamilyE
  split
  next h9E => exact ⟨wordXKK_of_fields hf h9E, rfl⟩
  next hA1 => exact ⟨wordXKK_of_fields hf hA1, rfl⟩
  next h9E hA1 =>
    have hnone : fieldKk w ∉ [0x9E#8, 0xA1#8] := by simpa using ⟨h9E, hA1⟩
    exact illegalWord_iff.2 (.inr (.inr (.inr (.inr (.inl ⟨hf, hnone⟩)))))

theorem decodeFamilyF_answersFor {w : Word} (hf : fieldFamily w = 0xF#4) : AnswersFor w (decodeFamilyF w) := by
  unfold decodeFamilyF
  split
  case h_10 =>
    have hnone : fieldKk w ∉ [0x07#8, 0x0A#8, 0x15#8, 0x18#8, 0x1E#8, 0x29#8, 0x33#8, 0x55#8, 0x65#8] := by
      simp only [List.mem_cons, List.not_mem_nil, or_false, not_or]
      and_intros <;> assumption
    exact illegalWord_iff.2 (.inr (.inr (.inr (.inr (.inr ⟨hf, hnone⟩)))))
  all_goals
    next hkk => exact ⟨wordXKK_of_fields hf hkk, rfl⟩

theorem decodeWord_answersFor (w : Word) : AnswersFor w (decodeWord w) := by
  unfold decodeWord
  split
  next hf => exact decodeFamily0_answersFor hf
  next hf => exact ⟨wordNNN_of_family hf, rfl⟩
  next hf => exact ⟨wordNNN_of_family hf, rfl⟩
  next hf => exact ⟨wordXKK_of_fields hf rfl, rfl⟩
  next hf => exact ⟨wordXKK_of_fields hf rfl, rfl⟩
  next hf =>
    split
    next hn => exact ⟨wordXYN_of_fields hf hn, rfl⟩
    next hn => exact illegalWord_iff.2 (.inr (.inl ⟨hf, hn⟩))
  next hf => exact ⟨wordXKK_of_fields hf rfl, rfl⟩
  next hf => exact ⟨wordXKK_of_fields hf rfl, rfl⟩
  next hf => exact decodeFamily8_answersFor hf
  next hf =>
    split
    next hn => exact ⟨wordXYN_of_fields hf hn, rfl⟩
    next hn => exact illegalWord_iff.2 (.inr (.inr (.inr (.inl ⟨hf, hn⟩))))
  next hf => exact ⟨wordNNN_of_family hf, rfl⟩
  next hf => exact ⟨wordNNN_of_family hf, rfl⟩
  next hf => exact ⟨wordXKK_of_fields hf rfl, rfl⟩
  next hf => exact ⟨wordXYN_of_fields hf rfl, rfl⟩
  next hf => exact decodeFamilyE_answersFor hf
  next =>
    have hrest : ∀ f : BitVec 4, f ∉ [0x0#4, 0x1#4, 0x2#4, 0x3#4, 0x4#4, 0x5#4, 0x6#4, 0x7#4, 0x8#4, 0x9#4, 0xA#4,
      0xB#4, 0xC#4, 0xD#4, 0xE#4] → f = 0xF#4 := by decide
    have hf : fieldFamily w = 0xF#4 := by
      apply hrest
      simp only [List.mem_cons, List.not_mem_nil, or_false, not_or]
      and_intros <;> assumption
    exact decodeFamilyF_answersFor hf

/-- Settles O2, by what the decoder's every answer is. -/
theorem encodeOfDecodeIsTheWord : Obligations.EncodeOfDecodeIsTheWord := by
  intro w i h
  exact (h ▸ decodeWord_answersFor w : AnswersFor w (.ok i))

theorem illegalWord_of_decodeWord_error {w : Word} {e : Reject} (h : decodeWord w = .error e) : IllegalWord w :=
  (h ▸ decodeWord_answersFor w : AnswersFor w (.error e))

/-- The words that decode to an instruction are its own word, where the instruction is well-formed. -/
theorem decodeWord_eq_ok_iff {w : Word} {i : Instr} : decodeWord w = .ok i ↔ encode i = w ∧ i.wellFormed = true := by
  refine ⟨encodeOfDecodeIsTheWord w i, ?_⟩
  rintro ⟨rfl, h⟩
  exact decodeWord_encode h

/-- Settles O5: the word of a well-formed no-op is the number of its immediate, and a word of the range has family 0. -/
theorem familyZeroNoOpSpaceIsExact : Obligations.FamilyZeroNoOpSpaceIsExact := by
  intro w
  simp only [decodeWord_eq_ok_iff, wellFormed_sysnop_iff]
  constructor
  · rintro ⟨nnn, rfl, h⟩
    have hlt := nnn.isLt
    simp only [encode, wordNNN_toNat, BitVec.toNat_ofNat]
    omega
  · rintro ⟨hlow, hhigh⟩
    have hf : fieldFamily w = 0x0#4 := by
      rw [← BitVec.toNat_inj, fieldFamily_toNat, BitVec.toNat_ofNat]
      omega
    refine ⟨fieldNnn w, wordNNN_of_family hf, ?_⟩
    rw [fieldNnn_toNat]
    omega

end Sys2Proof.Machine
end

section
/-! The rows of the opcode map against the decoder (30_encoding.md R54 to R56), and the Step on an illegal word and on every
other one (40_step_cycle.md R70, R71). -/

namespace Sys2Proof.Machine

/-! ### The fields of a selected word -/

section
variable (v w : Word)

theorem fieldFamily_and : fieldFamily (v &&& w) = fieldFamily v &&& fieldFamily w := BitVec.extractLsb'_and

theorem fieldN_and : fieldN (v &&& w) = fieldN v &&& fieldN w := BitVec.extractLsb'_and

theorem fieldKk_and : fieldKk (v &&& w) = fieldKk v &&& fieldKk w := BitVec.extractLsb'_and

theorem nibble_fieldX_and : nibble (fieldX (v &&& w)) = nibble (fieldX v) &&& nibble (fieldX w) := BitVec.extractLsb'_and

end

section
variable {r : OpcodeRow} {w : Word} (hsel : r.selects w = true)
include hsel

theorem and_mask_of_selects : w &&& r.mask = r.pattern := beq_iff_eq.1 hsel

theorem fieldFamily_of_selects (hmask : fieldFamily r.mask = 0xF#4) : fieldFamily r.pattern = fieldFamily w := by
  rw [← and_mask_of_selects hsel, fieldFamily_and, hmask]
  exact BitVec.and_allOnes

theorem fieldN_of_selects (hmask : fieldN r.mask = 0xF#4) : fieldN r.pattern = fieldN w := by
  rw [← and_mask_of_selects hsel, fieldN_and, hmask]
  exact BitVec.and_allOnes

theorem fieldKk_of_selects (hmask : fieldKk r.mask = 0xFF#8) : fieldKk r.pattern = fieldKk w := by
  rw [← and_mask_of_selects hsel, fieldKk_and, hmask]
  exact BitVec.and_allOnes

/-- A word with `x = 0` selects no row that asks for a bit of `x`. -/
theorem fieldX_pattern_eq_zero_of_selects (hx : fieldX w = 0) : fieldX r.pattern = 0 := by
  have hbits : nibble (fieldX r.pattern) = nibble 0 := by
    rw [← and_mask_of_selects hsel, nibble_fieldX_and, hx]
    exact BitVec.zero_and
  exact congrArg BitVec.toFin hbits

end

/-! ### The rows of the opcode map -/

/-- Two rows differ in a bit that is under both masks, so that no word selects both. -/
def RowsDisjoint (r q : OpcodeRow) : Prop := r.pattern &&& q.mask ≠ q.pattern &&& r.mask

theorem opcodeRows_disjoint : opcodeRows.Pairwise RowsDisjoint := by
  unfold RowsDisjoint
  decide

theorem RowsDisjoint.not_selects_both {r q : OpcodeRow} (h : RowsDisjoint r q) {w : Word} (hr : r.selects w = true) :
    q.selects w ≠ true := by
  intro hq
  refine h ?_
  rw [← and_mask_of_selects hr, ← and_mask_of_selects hq, BitVec.and_assoc, BitVec.and_assoc, BitVec.and_comm r.mask]

/-- A word that selects a row selects no other. -/
theorem filter_selects_eq_singleton {r : OpcodeRow} {w : Word} (hmem : r ∈ opcodeRows) (hsel : r.selects w = true) :
    opcodeRows.filter (·.selects w) = [r] := by
  have hpair := opcodeRows_disjoint.filter (·.selects w)
  have hr : r ∈ opcodeRows.filter (·.selects w) := List.mem_filter.2 ⟨hmem, hsel⟩
  have hall : ∀ q ∈ opcodeRows.filter (·.selects w), q.selects w = true := fun q hq => (List.mem_filter.1 hq).2
  generalize opcodeRows.filter (·.selects w) = rows at hpair hr hall
  match rows, hpair with
  | [q], _ => rw [List.mem_singleton.1 hr]
  | p :: q :: rest, hpair =>
    have hpq : RowsDisjoint p q := (List.pairwise_cons.1 hpair).1 q (by simp)
    exact absurd (hall q (by simp)) (hpq.not_selects_both (hall p (by simp)))

/-- Every instruction's word selects a row with its label. -/
theorem tableRow : ∀ i : Instr, Laws.TableRow.Statement i
  | .cls => Laws.TableRow.cls
  | .ret => Laws.TableRow.ret
  | .sysnop nnn => Laws.TableRow.sysnop nnn
  | .jp nnn => Laws.TableRow.jp nnn
  | .call nnn => Laws.TableRow.call nnn
  | .seImm x kk => Laws.TableRow.seImm x kk
  | .sneImm x kk => Laws.TableRow.sneImm x kk
  | .seReg x y => Laws.TableRow.seReg x y
  | .ldImm x kk => Laws.TableRow.ldImm x kk
  | .addImm x kk => Laws.TableRow.addImm x kk
  | .movReg x y => Laws.TableRow.movReg x y
  | .orReg x y => Laws.TableRow.orReg x y
  | .andReg x y => Laws.TableRow.andReg x y
  | .xorReg x y => Laws.TableRow.xorReg x y
  | .addReg x y => Laws.TableRow.addReg x y
  | .subReg x y => Laws.TableRow.subReg x y
  | .shr x y => Laws.TableRow.shr x y
  | .subnReg x y => Laws.TableRow.subnReg x y
  | .shl x y => Laws.TableRow.shl x y
  | .sneReg x y => Laws.TableRow.sneReg x y
  | .ldI nnn => Laws.TableRow.ldI nnn
  | .jpV0 nnn => Laws.TableRow.jpV0 nnn
  | .rnd x kk => Laws.TableRow.rnd x kk
  | .drw x y n => Laws.TableRow.drw x y n
  | .skp x => Laws.TableRow.skp x
  | .sknp x => Laws.TableRow.sknp x
  | .ldVxDt x => Laws.TableRow.ldVxDt x
  | .ldVxKey x => Laws.TableRow.ldVxKey x
  | .ldDtVx x => Laws.TableRow.ldDtVx x
  | .ldStVx x => Laws.TableRow.ldStVx x
  | .addI x => Laws.TableRow.addI x
  | .ldF x => Laws.TableRow.ldF x
  | .bcd x => Laws.TableRow.bcd x
  | .stm x => Laws.TableRow.stm x
  | .ldm x => Laws.TableRow.ldm x

/-- The mask of a row covers the family, and in the families with illegal words the sub-opcode as well: `n` in families 5, 8
and 9, and `kk` in families E and F and, below the no-op space, in family 0. -/
def CoversSubOpcode (r : OpcodeRow) : Prop :=
  fieldFamily r.mask = 0xF#4 ∧ (fieldFamily r.pattern ∈ [0x5#4, 0x8#4, 0x9#4] → fieldN r.mask = 0xF#4) ∧
  (fieldFamily r.pattern ∈ [0xE#4, 0xF#4] ∨ fieldFamily r.pattern = 0x0#4 ∧ fieldX r.pattern = 0 →
    fieldKk r.mask = 0xFF#8)

theorem opcodeRows_coverSubOpcode : ∀ r ∈ opcodeRows, CoversSubOpcode r := by
  unfold CoversSubOpcode
  decide

theorem opcodeRows_pattern_not_illegal : ∀ r ∈ opcodeRows, ¬ IllegalWord r.pattern := by
  simp only [illegalWord_iff]
  decide

/-- A row selects no illegal word: in the fields that make the word illegal it is the row's own pattern. -/
theorem not_illegalWord_of_selects {r : OpcodeRow} {w : Word} (hmem : r ∈ opcodeRows) (hsel : r.selects w = true) :
    ¬ IllegalWord w := by
  intro hw
  refine opcodeRows_pattern_not_illegal r hmem ?_
  obtain ⟨hfamily, hn, hkk⟩ := opcodeRows_coverSubOpcode r hmem
  rw [fieldFamily_of_selects hsel hfamily] at hn hkk
  rw [illegalWord_iff] at hw ⊢
  rw [fieldFamily_of_selects hsel hfamily]
  obtain ⟨hf, hx, h⟩ | ⟨hf, h⟩ | ⟨hf, h⟩ | ⟨hf, h⟩ | ⟨hf, h⟩ | ⟨hf, h⟩ := hw
  · have hx' := fieldX_pattern_eq_zero_of_selects hsel hx
    rw [fieldKk_of_selects hsel (hkk (.inr ⟨hf, hx'⟩))]
    exact .inl ⟨hf, hx', h⟩
  · rw [fieldN_of_selects hsel (hn (by simp [hf]))]
    exact .inr (.inl ⟨hf, h⟩)
  · rw [fieldN_of_selects hsel (hn (by simp [hf]))]
    exact .inr (.inr (.inl ⟨hf, h⟩))
  · rw [fieldN_of_selects hsel (hn (by simp [hf]))]
    exact .inr (.inr (.inr (.inl ⟨hf, h⟩)))
  · rw [fieldKk_of_selects hsel (hkk (by simp [hf]))]
    exact .inr (.inr (.inr (.inr (.inl ⟨hf, h⟩))))
  · rw [fieldKk_of_selects hsel (hkk (by simp [hf]))]
    exact .inr (.inr (.inr (.inr (.inr ⟨hf, h⟩))))

/-- Settles O3: an instruction's word selects its row and no other, and an illegal word selects none. -/
theorem wordSelectsTheRowOfItsInstructionAlone : Obligations.WordSelectsTheRowOfItsInstructionAlone := by
  intro w
  cases hd : decodeWord w with
  | ok i =>
    obtain ⟨rfl, hwf⟩ := decodeWord_eq_ok_iff.1 hd
    obtain ⟨r, hmem, hlabel, hsel⟩ := tableRow i hwf
    rw [filter_selects_eq_singleton hmem hsel]
    exact congrArg (fun l => [l]) hlabel
  | error e =>
    have hnone : opcodeRows.filter (·.selects w) = [] := List.filter_eq_nil_iff.2 fun r hmem hsel =>
      not_illegalWord_of_selects hmem hsel (illegalWord_of_decodeWord_error hd)
    rw [hnone]
    rfl

/-! ### Illegal words -/

/-- R56: the words that decode to no instruction are the six illegal sets. -/
theorem illegalWord_iff_decodeWord_error {w : Word} : IllegalWord w ↔ ∃ e, decodeWord w = .error e := by
  refine ⟨fun hw => ?_, fun ⟨e, h⟩ => illegalWord_of_decodeWord_error h⟩
  cases hd : decodeWord w with
  | error e => exact ⟨e, rfl⟩
  | ok i =>
    obtain ⟨rfl, hwf⟩ := decodeWord_eq_ok_iff.1 hd
    obtain ⟨r, hmem, -, hsel⟩ := tableRow i hwf
    exact absurd hw (not_illegalWord_of_selects hmem hsel)

theorem faultOf_ne_unknownOpcode (i : Instr) (s : State) (v pc : Word) : faultOf i s ≠ .unknownOpcode v pc := by
  cases i <;> simp [faultOf]

/-- A Step raises `UnknownOpcode` exactly when a running machine fetches an illegal word, and reports it with PC (R163). -/
theorem step_eq_unknownOpcode_iff {s : State} {v pc : Word} :
    step s = .fault (.unknownOpcode v pc) ↔ Fetches s v ∧ IllegalWord v ∧ pc = s.PC := by
  rw [step_eq_fault_iff, illegalWord_iff_decodeWord_error]
  constructor
  · rintro (⟨r, -, h⟩ | ⟨-, -, h⟩ | ⟨hrun, w, e, hf, hd, h⟩ | ⟨-, w, i, -, -, h⟩)
    · cases h
    · cases h
    · obtain ⟨rfl, rfl⟩ := Fault.unknownOpcode.inj h
      exact ⟨⟨hrun, hf⟩, ⟨e, hd⟩, rfl⟩
    · exact absurd (eq_faultOf_of_exec h).symm (faultOf_ne_unknownOpcode i _ v pc)
  · rintro ⟨⟨hrun, hf⟩, ⟨e, hd⟩, rfl⟩
    exact .inr (.inr (.inl ⟨hrun, v, e, hf, hd, rfl⟩))

/-- Settles O4: the fault says which word was fetched, and a Step fetches one word only. -/
theorem unknownOpcodeExactlyOnTheIllegalSets : Obligations.UnknownOpcodeExactlyOnTheIllegalSets := by
  refine fun s w hf => ⟨fun hw => step_eq_unknownOpcode_iff.2 ⟨hf, hw, rfl⟩, fun hw v pc h => ?_⟩
  obtain ⟨⟨-, hv⟩, hillegal, -⟩ := step_eq_unknownOpcode_iff.1 h
  obtain rfl : w = v := Option.some.inj (hf.2.symm.trans hv)
  exact hw hillegal

/-! ### Refusals -/

theorem orMemoryFault_ne_refused (s : State) (w : Word) (result : Except Nat State) (r : Refusal) :
    orMemoryFault s w result ≠ .refused r := by
  cases result <;> simp [orMemoryFault, raise]

/-- Every instruction has a meaning: its dispatch completes or faults. -/
theorem exec_ne_refused (i : Instr) (s : State) (r : Refusal) : exec i s ≠ .refused r := by
  intro h
  cases i with
  | ret | call nnn | skp x | sknp x =>
    simp only [exec, execRet, execCall, execSkp, execSknp] at h
    split at h <;> cases h
  | bcd x | stm x | ldm x | drw x y n => exact orMemoryFault_ne_refused _ _ _ _ h
  | _ => cases h

/-- A refused Step is the refusal of a dispatch (R73). -/
theorem exec_refused_of_step {s : State} {r : Refusal} (h : step s = .refused r) : ∃ i, exec i s.beginStep = .refused r := by
  unfold step at h
  cases hs : s.status with
  | faulted record => simp [hs] at h
  | running =>
    cases hf : fetch s with
    | none => simp [hs, hf, fetchFault] at h
    | some w =>
      cases hd : decodeWord w with
      | error e => simp [hs, hf, hd, illegalWord, raise] at h
      | ok i => exact ⟨i, finishStep_eq_refused_iff.1 (by simpa [hs, hf, hd] using h)⟩

/-- Settles O15: only the dispatch could refuse, and no instruction's does. -/
theorem noStepIsRefused : Obligations.NoStepIsRefused := by
  intro s r h
  obtain ⟨i, hi⟩ := exec_refused_of_step h
  exact exec_ne_refused i _ r hi

end Sys2Proof.Machine
end

section
/-! The phases of a Step around its dispatch (40_step_cycle.md R65 to R73): what the advance and the tick change, the timers
after the dispatch (R16, R69), and the outputs at the end (R72). -/

namespace Sys2Proof.Machine

/-! ### The start and the end of a Step -/

/-- The tick of a timer, with the enable and the test for 0 as one condition (R69). -/
theorem ite_tickTimer (enabled : Bool) (v : Byte) :
    (if enabled then tickTimer v else v) = if enabled = true ∧ v ≠ 0 then v - 1 else v := by
  cases enabled <;> simp [tickTimer]

theorem State.beginStep_DT_eq_ite (s : State) :
    s.beginStep.DT = if s.tickEn = true ∧ s.DT ≠ 0 then s.DT - 1 else s.DT :=
  s.beginStep_DT.trans (ite_tickTimer _ _)

theorem State.beginStep_ST_eq_ite (s : State) :
    s.beginStep.ST = if s.tickEn = true ∧ s.ST ≠ 0 then s.ST - 1 else s.ST :=
  s.beginStep_ST.trans (ite_tickTimer _ _)

theorem changesOnly_tick (s : State) : ChangesOnly (fun p => p = .delayTimer ∨ p = .soundTimer) s s.tick := by
  unfold State.tick
  split
  · exact ((changesOnly_setDT s _).mono fun _ => .inl).trans ((changesOnly_setST _ _).mono fun _ => .inr)
  · exact ChangesOnly.refl _ s

/-- Advance, tick and the clearing of the outputs, one after the other (R68, R69, R73). -/
theorem changesOnly_beginStep (s : State) :
    ChangesOnly (fun p => p = .pc ∨ p = .delayTimer ∨ p = .soundTimer ∨ p = .output) s s.beginStep := by
  refine (((changesOnly_setPC s _).mono fun _ => .inl).trans ((changesOnly_tick s.advance).mono ?_)).trans
    ((changesOnly_setOutput s.advance.tick .quiet).mono fun _ h => .inr (.inr (.inr h)))
  exact fun _ h => .inr (h.imp_right .inl)

theorem changesOnly_endStep (s u : State) : ChangesOnly (fun p => p = .output ∨ p = .inputs) u (s.endStep u) := by
  intro p hp
  cases p with
  | output => exact absurd (.inl rfl) hp
  | inputs => exact absurd (.inr rfl) hp
  | _ => rfl

/-- A running machine that fetches an instruction runs its dispatch between the start and the end of the Step (R73). -/
theorem Fetches.step_eq {s : State} {w : Word} {i : Instr} (hf : Fetches s w) (hd : decodeWord w = .ok i) :
    step s = finishStep s (exec i s.beginStep) := by
  obtain ⟨hrun, hw⟩ := hf
  simp only [step, hrun, hw, hd]

/-- Settles O7: the dispatch by R73, what stands before it by the advance and the tick, what follows by the end of the Step. -/
theorem stepRunsTheDecodedInstruction : Obligations.StepRunsTheDecodedInstruction := fun s _ _ hf hd =>
  ⟨hf.step_eq hd, s.beginStep_PC, s.beginStep_DT_eq_ite, s.beginStep_ST_eq_ite, s.beginStep_OUT, changesOnly_beginStep s,
    fun u => ⟨rfl, changesOnly_endStep s u, rfl, rfl, rfl⟩, fun _ => rfl, fun _ => rfl⟩

/-! ### The timers -/

theorem mayChange_delayTimer_iff (i : Instr) : MayChange i .delayTimer ↔ ∃ x, i = .ldDtVx x := by
  cases i <;> simp [MayChange]

theorem mayChange_soundTimer_iff (i : Instr) : MayChange i .soundTimer ↔ ∃ x, i = .ldStVx x := by
  cases i <;> simp [MayChange]

section
variable {i : Instr} {s t : State} (h : exec i s = .next t)
include h

/-- Only Fx15 writes DT (R16). -/
theorem exec_DT (hi : ∀ x, i ≠ .ldDtVx x) : t.DT = s.DT :=
  exec_changesOnly h .delayTimer fun hc => not_exists.2 hi ((mayChange_delayTimer_iff i).1 hc)

/-- Only Fx18 writes ST (R16). -/
theorem exec_ST (hi : ∀ x, i ≠ .ldStVx x) : t.ST = s.ST :=
  exec_changesOnly h .soundTimer fun hc => not_exists.2 hi ((mayChange_soundTimer_iff i).1 hc)

end

/-- Settles O10: the dispatch starts from the ticked timers; Fx15 and Fx18 alone write one, and Fx07 reads one. -/
theorem timersTickBeforeTheDispatch : Obligations.TimersTickBeforeTheDispatch := by
  intro s t i hd h ticked
  obtain ⟨u, hu, rfl⟩ := hd.exec_of_step h
  refine ⟨fun hi => ?_, fun hi => ?_, ?_, ?_, ?_⟩
  · exact (exec_DT hu hi).trans s.beginStep_DT_eq_ite
  · exact (exec_ST hu hi).trans s.beginStep_ST_eq_ite
  · rintro x rfl
    cases hu
    exact (State.reg_setReg_same _ x _).trans s.beginStep_DT_eq_ite
  · rintro x rfl
    cases hu
    exact s.beginStep_reg x
  · rintro x rfl
    cases hu
    exact s.beginStep_reg x

/-! ### The display output -/

/-- The output at the end of a Step compares the display with the one before the Step (R72). -/
theorem endStep_displayChanged_iff (s u : State) :
    (s.endStep u).OUT.displayChanged = true ↔ ∃ cx cy, u.pixel cx cy ≠ s.pixel cx cy :=
  Display.differs_iff s.DISP u.DISP

/-- Settles O13: the output is the comparison of the two displays, and only 00E0 and Dxyn write the display. -/
theorem displayChangedExactlyWhenAPixelDiffers : Obligations.DisplayChangedExactlyWhenAPixelDiffers := by
  intro s t i hd h
  obtain ⟨u, hu, rfl⟩ := hd.exec_of_step h
  refine ⟨endStep_displayChanged_iff s u, fun hchanged => ?_⟩
  obtain ⟨cx, cy, hne⟩ := (endStep_displayChanged_iff s u).1 hchanged
  by_contra hi
  have hsame : u.DISP = s.DISP := (exec_DISP hu hi).trans s.beginStep_DISP
  exact hne (congrArg (Display.lit · cx cy) hsame)

end Sys2Proof.Machine
end

section
/-! Control transfer (41_flow.md R80 to R88, R199): the dispatches of jumps, call, return, the register skips and the family-0
no-op, and the Steps that end in them. -/

namespace Sys2Proof.Machine

/-! ### What a dispatch or a Step leaves alone -/

/-- A dispatch that does not complete raises the one fault of its instruction (R161). -/
theorem exec_eq_fault_of_ne_next {i : Instr} {s : State} (h : ∀ t, exec i s ≠ .next t) :
    exec i s = .fault (faultOf i s) := by
  cases he : exec i s with
  | next t => exact absurd he (h t)
  | fault f => rw [eq_faultOf_of_exec he]
  | refused r => exact absurd he (exec_ne_refused i s r)

theorem mayChange_output_iff (i : Instr) : MayChange i .output ↔ ∃ nnn, i = .sysnop nnn := by
  cases i <;> simp [MayChange]

/-- Only the family-0 no-op writes an output in its dispatch (R168). -/
theorem exec_OUT {i : Instr} {s t : State} (h : exec i s = .next t) (hi : ¬ ∃ nnn, i = .sysnop nnn) : t.OUT = s.OUT :=
  exec_changesOnly h .output fun hc => hi ((mayChange_output_iff i).1 hc)

/-- A Step that completes changes what its instruction may change, and what the phases around the dispatch do (R73). -/
theorem Dispatches.changesOnly_of_step {s t : State} {i : Instr} (hd : Dispatches s i) (h : step s = .next t) :
    ChangesOnly (fun p => MayChange i p ∨ p = .pc ∨ p = .delayTimer ∨ p = .soundTimer ∨ p = .inputs ∨ p = .output) s t := by
  obtain ⟨u, hu, rfl⟩ := hd.exec_of_step h
  refine ((changesOnly_beginStep s).mono ?_).trans
    (((exec_changesOnly hu).mono fun _ => .inl).trans ((changesOnly_endStep s u).mono ?_))
  · rintro p (hp | hp | hp | hp) <;> simp [hp]
  · rintro p (hp | hp) <;> simp [hp]

/-! ### The log event -/

/-- Settles O14: the words of the range are those of the no-op, whose dispatch logs its own word; every other dispatch leaves
the outputs as the start of the Step cleared them. -/
theorem logEventExactlyOnFamilyZeroNoOps : Obligations.LogEventExactlyOnFamilyZeroNoOps := by
  intro s t w hf h
  obtain ⟨i, u, hw, hu, rfl⟩ : ∃ i u, decodeWord w = .ok i ∧ exec i s.beginStep = .next u ∧ t = s.endStep u := by
    obtain ⟨-, w', i, u, hf', hstep⟩ := step_eq_next_iff.1 h
    obtain rfl : w = w' := Option.some.inj (hf.2.symm.trans hf')
    exact ⟨i, u, hstep⟩
  rw [← familyZeroNoOpSpaceIsExact w, hw, State.endStep_logEvent]
  constructor
  · rintro ⟨nnn, hi⟩
    obtain rfl := Except.ok.inj hi
    cases hu
    simp [(decodeWord_eq_ok_iff.1 hw).1]
  · intro hi
    have hne : ¬ ∃ nnn, i = .sysnop nnn := fun ⟨nnn, he⟩ => hi ⟨nnn, congrArg _ he⟩
    rw [exec_OUT hu hne, State.beginStep_OUT]

/-- Settles O35: the dispatch is one write of the outputs, and a word of the no-op decodes from 0x100 up. -/
theorem familyZeroNoOpOnlyLogs : Obligations.FamilyZeroNoOpOnlyLogs := fun _ s =>
  ⟨decodeWord_sysnop, _, rfl, rfl, rfl, changesOnly_setOutput s _⟩

/-! ### Jumps -/

/-- Settles O30: each jump is one write of PC, and neither target wraps. -/
theorem jumpsSetProgramCounterOnly : Obligations.JumpsSetProgramCounterOnly := fun nnn s =>
  ⟨⟨decodeWord_encode (i := .jp nnn) rfl, _, rfl, immTarget_toNat nnn, changesOnly_setPC s _⟩,
    ⟨decodeWord_encode (i := .jpV0 nnn) rfl, _, rfl, offsetTarget_toNat nnn (s.reg 0), changesOnly_setPC s _⟩⟩

/-- Settles O58: the Step changes PC, the timers, the inputs and the outputs at most, and PC is put back where it was. -/
theorem jumpToSelfLeavesAllButTheTimers : Obligations.JumpToSelfLeavesAllButTheTimers := by
  intro s nnn hd hself
  obtain ⟨t, h⟩ : ∃ t, step s = .next t := by
    obtain ⟨w, hf, hw⟩ := hd
    exact ⟨_, hf.step_eq hw⟩
  have hpc : t.PC = s.PC :=
    BitVec.eq_of_toNat_eq ((programCounterAfterAStepIsAsTabled s t (.jp nnn) hd h).trans hself)
  refine ⟨t, h, fun p hp => ?_⟩
  by_cases hp' : p = .pc
  · rw [hp']; exact hpc
  · exact hd.changesOnly_of_step h p (by simpa [MayChange, hp'] using hp)

/-! ### Call and return -/

/-- Settles O31: a call completes where an entry is free, with the push and the jump; elsewhere it raises its fault. -/
theorem callPushesTheAdvancedProgramCounter : Obligations.CallPushesTheAdvancedProgramCounter := by
  intro nnn s
  refine ⟨decodeWord_encode (i := .call nnn) rfl, fun hfree => ?_, fun hfull => ?_⟩
  · exact ⟨_, exec_call_eq_next_iff.2 ⟨hfree, rfl⟩, rfl, immTarget_toNat nnn,
      (changesOnly_setStack_setPC s _ _).mono fun _ => Or.symm⟩
  · exact exec_eq_fault_of_ne_next fun t ht => Nat.not_lt.2 hfull (exec_call_eq_next_iff.1 ht).1

/-- Settles O32: a return completes where the stack has an entry, with the pop; on the empty stack it raises its fault. -/
theorem returnPopsTheLastPushedAddress : Obligations.ReturnPopsTheLastPushedAddress := by
  refine ⟨decodeWord_encode (i := .ret) rfl, fun s => ⟨fun v rest hS => ?_, fun hS => ?_⟩⟩
  · exact ⟨_, exec_ret_eq_next_iff.2 ⟨v, rest, hS, rfl⟩, rfl, rfl,
      (changesOnly_setStack_setPC s rest v).mono fun _ => Or.symm⟩
  · refine exec_eq_fault_of_ne_next fun t ht => ?_
    obtain ⟨v, rest, hcons, -⟩ := exec_ret_eq_next_iff.1 ht
    rw [hS] at hcons
    cases hcons

/-- Settles O33: the call Step leaves its advanced PC on top of the old stack, and the return Step takes it from there. -/
theorem returnGoesBackAfterTheCall : Obligations.ReturnGoesBackAfterTheCall := by
  intro s t u v nnn hcall hst hS hret huv
  obtain ⟨t', ht', rfl⟩ := hcall.exec_of_step hst
  obtain ⟨v', hv', rfl⟩ := hret.exec_of_step huv
  obtain ⟨-, rfl⟩ := exec_call_eq_next_iff.1 ht'
  obtain ⟨top, rest, hpop, rfl⟩ := exec_ret_eq_next_iff.1 hv'
  have hstack : top :: rest = (s.PC + 2) :: s.S := by
    calc top :: rest = u.S := by rw [← hpop, State.beginStep_S]
      _ = s.beginStep.PC :: s.beginStep.S := hS
      _ = (s.PC + 2) :: s.S := by rw [State.beginStep_PC, State.beginStep_S]
  obtain ⟨rfl, rfl⟩ := List.cons.inj hstack
  have hlt := hcall.pc_lt
  refine ⟨?_, rfl⟩
  show (s.PC + 2).toNat = s.PC.toNat + 2
  bv_omega

/-! ### The skips on registers -/

/-- Settles O34: a skip writes PC alone, and the test of each is its condition or the negation of it. -/
theorem registerSkipsAddTwoWhenTheConditionHolds : Obligations.RegisterSkipsAddTwoWhenTheConditionHolds := by
  intro x y kk s
  refine ⟨⟨decodeWord_encode (i := .seImm x kk) rfl, decodeWord_encode (i := .sneImm x kk) rfl,
      decodeWord_encode (i := .seReg x y) rfl, decodeWord_encode (i := .sneReg x y) rfl⟩,
    ⟨_, rfl, ?seImm, changesOnly_skipIf _ s⟩, ⟨_, rfl, ?sneImm, changesOnly_skipIf _ s⟩,
    ⟨_, rfl, ?seReg, changesOnly_skipIf _ s⟩, ⟨_, rfl, ?sneReg, changesOnly_skipIf _ s⟩⟩
  case seImm | sneImm | seReg | sneReg => simp [skipIf_eq]

end Sys2Proof.Machine
end

section
/-! Register load, arithmetic, logic, shift and random (42_alu.md R100 to R113): the computed bytes as natural numbers, what a
destination reads after the flag is written, and the dispatches. -/

namespace Sys2Proof.Machine

/-! ### The computed bytes (R112) -/

theorem addByte_toNat (a b : Byte) : (addByte a b).toNat = (a.toNat + b.toNat) % 256 := BitVec.toNat_add a b

/-- With a borrow the difference is taken from 256 up (R107, R109). -/
theorem subByte_toNat (a b : Byte) : (subByte a b).toNat =
    if b.toNat ≤ a.toNat then a.toNat - b.toNat else 256 - b.toNat + a.toNat := by
  unfold subByte
  split
  case isTrue h => exact BitVec.toNat_sub_of_le h
  case isFalse h =>
    have hlt := b.isLt
    rw [BitVec.toNat_sub_of_lt (Nat.not_le.1 h)]
    omega

theorem shiftRight_toNat (v : Byte) : (shiftRight v).toNat = v.toNat / 2 :=
  (BitVec.toNat_ushiftRight v 1).trans (Nat.shiftRight_eq_div_pow _ 1)

theorem shiftLeft_toNat (v : Byte) : (shiftLeft v).toNat = v.toNat * 2 % 256 := by
  rw [shiftLeft, BitVec.toNat_shiftLeft, Nat.shiftLeft_eq]

/-! ### The destination after the flag (R113) -/

theorem reg_setVF_of_ne (s : State) (b : Bool) {r : Reg} (hr : r ≠ 0xF) : (s.setVF b).reg r = s.reg r :=
  State.reg_setReg_ne s regVF r (flagByte b) hr.symm

theorem reg_setReg_setVF (s : State) {x : Reg} (v : Byte) (b : Bool) (hx : x ≠ 0xF) :
    ((s.setReg x v).setVF b).reg x = v :=
  (reg_setVF_of_ne _ b hx).trans (State.reg_setReg_same s x v)

/-- Both destinations of a shift hold the one shifted value (R108, R110). -/
theorem reg_setReg_setReg_setVF (s : State) {x y r : Reg} (v : Byte) (b : Bool) (h : r = x ∨ r = y) (hr : r ≠ 0xF) :
    (((s.setReg y v).setReg x v).setVF b).reg r = v := by
  rw [reg_setVF_of_ne _ b hr, State.reg_setReg]
  split
  case isTrue => rfl
  case isFalse hx =>
    obtain rfl := h.resolve_left (Ne.symm hx)
    exact State.reg_setReg_same s r v

/-! ### Instructions that write one register -/

/-- Settles O36: the dispatch is one register write. -/
theorem loadImmediateWritesItsRegisterOnly : Obligations.LoadImmediateWritesItsRegisterOnly := fun x kk s =>
  ⟨decodeWord_encode (i := .ldImm x kk) rfl, _, rfl, State.reg_setReg_same s x kk, changesOnly_setReg s x kk⟩

/-- Settles O37: the dispatch is one register write, of the sum modulo 256. -/
theorem addImmediateWrapsAndLeavesTheFlag : Obligations.AddImmediateWrapsAndLeavesTheFlag := fun x kk s =>
  ⟨decodeWord_encode (i := .addImm x kk) rfl, _, rfl,
    (congrArg BitVec.toNat (State.reg_setReg_same s x _)).trans (addByte_toNat _ kk), changesOnly_setReg s x _⟩

/-- Settles O38: the dispatch is one register write. -/
theorem moveCopiesTheRegister : Obligations.MoveCopiesTheRegister := fun x y s =>
  ⟨decodeWord_encode (i := .movReg x y) rfl, _, rfl, State.reg_setReg_same s x _, changesOnly_setReg s x _⟩

/-- Settles O39: each dispatch is one register write, of a byte that is the operation bit by bit. -/
theorem logicWritesItsRegisterOnly : Obligations.LogicWritesItsRegisterOnly := by
  intro x y s
  refine ⟨⟨decodeWord_encode (i := .orReg x y) rfl, decodeWord_encode (i := .andReg x y) rfl,
      decodeWord_encode (i := .xorReg x y) rfl⟩,
    ⟨_, rfl, fun b => ?or, changesOnly_setReg s x _⟩, ⟨_, rfl, fun b => ?and, changesOnly_setReg s x _⟩,
    ⟨_, rfl, fun b => ?xor, changesOnly_setReg s x _⟩⟩
  case or => rw [State.reg_setReg_same, BitVec.getLsbD_or]
  case and => rw [State.reg_setReg_same, BitVec.getLsbD_and]
  case xor => rw [State.reg_setReg_same, BitVec.getLsbD_xor, Bool.bne_eq_xor]

/-- The dispatch of Cxkk masks the byte the Step offers, whoever chose it (R111). -/
theorem exec_rnd_masks (x : Reg) (kk : Byte) (s : State) : ∃ t, exec (.rnd x kk) s = .next t ∧
    (∀ b, (t.reg x).getLsbD b = (s.rnd.getLsbD b && kk.getLsbD b)) ∧ (t.reg x).toNat ≤ kk.toNat ∧
    ChangesOnly (fun p => p = .reg x) s t := by
  have hx : (s.setReg x (s.rnd &&& kk)).reg x = s.rnd &&& kk := State.reg_setReg_same s x _
  refine ⟨_, rfl, fun b => ?bits, ?bound, changesOnly_setReg s x _⟩
  case bits => rw [hx, BitVec.getLsbD_and]
  case bound => rw [hx, BitVec.toNat_and]; exact Nat.and_le_right

/-- Settles O43: the mask holds in every state, and a fixed byte is the byte of the state in which it is offered. -/
theorem randomByteIsMasked : Obligations.RandomByteIsMasked := fun x kk s input =>
  ⟨decodeWord_encode (i := .rnd x kk) rfl, exec_rnd_masks x kk s, exec_rnd_masks x kk (s.offerInput input)⟩

/-! ### Instructions that write a flag last: VF is as R12's table says -/

/-- Settles O40: the sum and then the carry are written, and no other register. -/
theorem addWritesTheSumThenTheCarry : Obligations.AddWritesTheSumThenTheCarry := by
  intro x y s
  refine ⟨decodeWord_encode (i := .addReg x y) rfl, _, rfl, fun hx => ?sum,
    flagRegisterReceivesTheTabledValue (.addReg x y) s _ rfl, changesOnly_setReg_setVF s x _ _⟩
  rw [reg_setReg_setVF s _ _ hx, addByte_toNat]

/-- Settles O41: the difference and then the no-borrow flag are written, and no other register. -/
theorem subtractionsWriteTheDifferenceThenNoBorrow : Obligations.SubtractionsWriteTheDifferenceThenNoBorrow := by
  intro x y s
  refine ⟨⟨decodeWord_encode (i := .subReg x y) rfl, decodeWord_encode (i := .subnReg x y) rfl⟩,
    ⟨_, rfl, fun hx => ?sub, flagRegisterReceivesTheTabledValue (.subReg x y) s _ rfl, changesOnly_setReg_setVF s x _ _⟩,
    ⟨_, rfl, fun hx => ?subn, flagRegisterReceivesTheTabledValue (.subnReg x y) s _ rfl, changesOnly_setReg_setVF s x _ _⟩⟩
  case sub | subn => rw [reg_setReg_setVF s _ _ hx, subByte_toNat]

/-- Settles O42: the shifted value goes to both registers, then the bit shifted out to VF, and no other register is written. -/
theorem shiftsWriteBothRegistersThenTheBitShiftedOut : Obligations.ShiftsWriteBothRegistersThenTheBitShiftedOut := by
  intro x y s
  refine ⟨⟨decodeWord_encode (i := .shr x y) rfl, decodeWord_encode (i := .shl x y) rfl⟩,
    ⟨_, rfl, fun r h hr => ?shr, flagRegisterReceivesTheTabledValue (.shr x y) s _ rfl,
      changesOnly_setReg_setReg_setVF s x y _ _⟩,
    ⟨_, rfl, fun r h hr => ?shl, flagRegisterReceivesTheTabledValue (.shl x y) s _ rfl,
      changesOnly_setReg_setReg_setVF s x y _ _⟩⟩
  case shr => rw [reg_setReg_setReg_setVF s _ _ h hr, shiftRight_toNat]
  case shl => rw [reg_setReg_setReg_setVF s _ _ h hr, shiftLeft_toNat]

end Sys2Proof.Machine
end

section
/-! Index register and memory instructions (43_index_memory.md R120 to R126): the computed addresses as natural numbers, the
bytes of a block in memory, and the dispatches. -/

namespace Sys2Proof.Machine

/-! ### The computed values of I (R120 to R122) -/

theorem addIndex_toNat (i : Word) (v : Byte) : (addIndex i v).toNat = (i.toNat + v.toNat) % 65536 :=
  BitVec.toNat_ofNat _ 16

/-- The highest glyph address is 0x54B, so it does not wrap (R122). -/
theorem glyphAddress_toNat (v : Byte) : (glyphAddress v).toNat = v.toNat * 5 + 0x50 := by
  rw [glyphAddress, BitVec.toNat_ofNat, Nat.mod_eq_of_lt (by unfold fontBase; omega)]
  rfl

/-! ### Instructions that write I -/

/-- Settles O44: the dispatch is one write of I, with the immediate zero-extended. -/
theorem indexLoadWritesTheIndexOnly : Obligations.IndexLoadWritesTheIndexOnly := fun nnn s =>
  ⟨decodeWord_encode (i := .ldI nnn) rfl, _, rfl, immTarget_toNat nnn, changesOnly_setI s _⟩

/-- Settles O45: the dispatch is one write of I, of a sum that does not wrap. -/
theorem glyphAddressIsWrittenForEveryValue : Obligations.GlyphAddressIsWrittenForEveryValue := fun x s =>
  ⟨decodeWord_encode (i := .ldF x) rfl, _, rfl, glyphAddress_toNat (s.reg x), changesOnly_setI s _⟩

/-- Settles O46: the sum and then the carry are written; VF is as R12's table says. -/
theorem addToIndexWritesTheCarryOutOfSixteenBits : Obligations.AddToIndexWritesTheCarryOutOfSixteenBits := fun x s =>
  ⟨decodeWord_encode (i := .addI x) rfl, _, rfl, addIndex_toNat s.I (s.reg x),
    flagRegisterReceivesTheTabledValue (.addI x) s _ rfl, exec_changesOnly (i := .addI x) rfl⟩

/-! ### The addresses of a block (R126) -/

/-- A block of `k + 1` bytes from I fits in memory exactly when the address of its last byte is valid. -/
theorem block_le_memSize_iff (s : State) (k : Nat) :
    effectiveAddress s 0 + (k + 1) ≤ memSize ↔ effectiveAddress s k < 4096 := Iff.rfl

/-- Byte `k` of a block written from I stands at `I + k`. -/
theorem readByte_writeBytes_effectiveAddress (s : State) {xs : List Byte} {k : Nat} {v : Byte}
    (h : xs[k]? = some v) : (s.writeBytes (effectiveAddress s 0) xs).readByte (effectiveAddress s k) = v := by
  have haddress : effectiveAddress s k = effectiveAddress s 0 + k := rfl
  rw [State.readByte_writeBytes, haddress, if_pos (Nat.le_add_right _ _), Nat.add_sub_cancel_left, h, Option.getD_some]

/-- A block written from I changes the bytes at `I + k` for the `k` below its length, and nothing else. -/
theorem changesOnly_writeBytes_effectiveAddress (s : State) (xs : List Byte) :
    ChangesOnly (fun p => ∃ k, k < xs.length ∧ p = .byte (effectiveAddress s k)) s
      (s.writeBytes (effectiveAddress s 0) xs) :=
  changesOnly_writeBytes s _ xs

/-! ### The stores -/

/-- Settles O47: the three digits are a block from I, and each is a byte, so storing it loses nothing. -/
theorem decimalDigitsAreStoredAtTheIndex : Obligations.DecimalDigitsAreStoredAtTheIndex := by
  intro x s
  refine ⟨decodeWord_encode (i := .bcd x) rfl, fun hfits => ?_, fun hbad => ?_⟩
  · refine ⟨_, exec_bcd_eq_next_iff.2 ⟨(block_le_memSize_iff s 2).2 hfits, rfl⟩, ?hundreds, ?tens, ?ones,
      (changesOnly_writeBytes_effectiveAddress s _).mono fun p ⟨k, hk, hp⟩ => ⟨k, Nat.le_of_lt_succ hk, hp⟩⟩
    case hundreds | tens | ones =>
      exact (congrArg BitVec.toNat (readByte_writeBytes_effectiveAddress s rfl)).trans (Nat.mod_eq_of_lt (by omega))
  · exact exec_eq_fault_of_ne_next fun t ht =>
      Nat.not_lt.2 hbad ((block_le_memSize_iff s 2).1 (exec_bcd_eq_next_iff.1 ht).1)

/-- Settles O48: the registers are a block from I. -/
theorem blockStoreWritesRegistersToMemory : Obligations.BlockStoreWritesRegistersToMemory := by
  intro x s
  refine ⟨decodeWord_encode (i := .stm x) rfl, fun hfits => ?_, fun hbad => ?_⟩
  · have hnext := exec_stm_eq_next_iff.2 ⟨(block_le_memSize_iff s x.val).2 hfits, rfl⟩
    refine ⟨_, hnext, fun r hr => (readByte_of_exec_stm hnext hr).2,
      (changesOnly_writeBytes_effectiveAddress s _).mono ?_⟩
    rintro p ⟨k, hk, rfl⟩
    rw [regsUpTo_length] at hk
    exact ⟨⟨k, by omega⟩, Nat.le_of_lt_succ hk, rfl⟩
  · exact exec_eq_fault_of_ne_next fun t ht =>
      Nat.not_lt.2 hbad ((block_le_memSize_iff s x.val).1 (exec_stm_eq_next_iff.1 ht).1)

/-! ### The load -/

/-- Fx65 completes exactly when its last address is valid (R125). -/
theorem exists_exec_ldm_eq_next_iff {x : Reg} {s : State} :
    (∃ t, exec (.ldm x) s = .next t) ↔ effectiveAddress s x.val < 4096 := by
  obtain ⟨hok, herror⟩ := loadRegs_completes (x.val + 1) 0 s
  simp only [exec_ldm_eq_next_iff]
  rw [Nat.zero_add, Nat.add_sub_cancel] at hok herror
  refine ⟨fun ⟨t, ht⟩ => ?_, fun hfits => hok (.inr hfits)⟩
  by_contra hbad
  cases ht.symm.trans (herror (by simp [memSize, hbad]))

/-- Settles O49: the block load leaves each register of its block the byte at I and its number, and changes no other part. -/
theorem blockLoadReadsRegistersFromMemory : Obligations.BlockLoadReadsRegistersFromMemory := by
  intro x s
  refine ⟨decodeWord_encode (i := .ldm x) rfl, fun hfits => ?_, fun hbad => ?_⟩
  · obtain ⟨t, ht⟩ := exists_exec_ldm_eq_next_iff.2 hfits
    have hload := exec_ldm_eq_next_iff.1 ht
    refine ⟨t, ht, fun r hr => ?_, changesOnly_loadRegs hload⟩
    have hle : r.val ≤ x.val := hr
    rw [loadRegs_reg _ _ _ _ (by omega) hload, if_pos (by omega)]
  · exact exec_eq_fault_of_ne_next fun t ht => Nat.not_lt.2 hbad (exists_exec_ldm_eq_next_iff.1 ⟨t, ht⟩)

end Sys2Proof.Machine
end

section
/-! Display instructions (44_display.md R135 to R137): when a draw completes, what it does to each pixel and to VF, and what two
draws of the same sprite leave. -/

namespace Sys2Proof.Machine

/-! ### Clearing -/

/-- Settles O50: the dispatch is one write of the display, of the clear one. -/
theorem clearMakesEveryPixelFalse : Obligations.ClearMakesEveryPixelFalse :=
  ⟨decodeWord_encode (i := .cls) rfl, fun s =>
    ⟨_, rfl, fun cx cy => (State.setDisplay_pixel s _ cx cy).trans (Display.lit_clear cx cy), changesOnly_setDisplay s _⟩⟩

/-! ### The pixels of a sprite -/

/-- A sprite has nothing above its top row (R137). -/
theorem top_le_of_spritePixel {s : State} {x0 y0 n : Nat} {cx : Fin 64} {cy : Fin 32}
    (h : spritePixel s x0 y0 n cx cy = true) : y0 ≤ cy.val := by
  simp only [spritePixel, Bool.and_eq_true, decide_eq_true_eq] at h
  obtain ⟨⟨-, -, htop, -⟩, -⟩ := h
  exact htop

/-- What a sprite has for a pixel depends on I and memory alone. -/
theorem spritePixel_congr {s t : State} (hI : t.I = s.I) (hmem : ∀ a, t.readByte a = s.readByte a) (x0 y0 n : Nat)
    (cx : Fin 64) (cy : Fin 32) : spritePixel t x0 y0 n cx cy = spritePixel s x0 y0 n cx cy := by
  simp only [spritePixel, effectiveAddress, hI, hmem]

/-! ### One draw -/

/-- Dxyn completes exactly when the address of the last row it reads is valid (R136). -/
theorem exists_exec_drw_eq_next_iff {x y : Reg} {n : Height} {s : State} :
    (∃ t, exec (.drw x y n) s = .next t) ↔ Completes (.drw x y n) s := by
  have hrow : startRow (s.reg y) + 0 ≤ 32 := (Nat.mod_lt _ (by decide)).le
  obtain ⟨hok, herror⟩ := drawRows_completes s (startColumn (s.reg x)) (startRow (s.reg y)) n.val 0 ⟨s.DISP, false⟩ hrow
  rw [Nat.zero_add] at hok herror
  simp only [exec_drw_eq_next_iff]
  constructor
  · rintro ⟨t, g, hg, -⟩
    by_contra hbad
    cases hg.symm.trans (herror hbad)
  · intro hin
    obtain ⟨g, hg⟩ := hok hin
    exact ⟨_, g, hg, rfl⟩

section
variable {x y : Reg} {n : Height} {s t : State} (h : exec (.drw x y n) s = .next t)
include h

/-- A draw flips the pixels that its sprite has a 1 for (R136, R137). -/
theorem pixel_of_exec_drw (cx : Fin 64) (cy : Fin 32) : t.pixel cx cy =
    (s.pixel cx cy ^^ spritePixel s ((s.reg x).toNat % 64) ((s.reg y).toNat % 32) n.val cx cy) := by
  obtain ⟨g, hg, rfl⟩ := exec_drw_eq_next_iff.1 h
  have hpixel : (s.withDrawing g).pixel cx cy = Display.lit g.disp cx cy := rfl
  rw [hpixel, lit_drawRows s _ _ cx cy _ _ _ g hg, Nat.zero_add, Nat.add_zero,
    Bool.and_eq_right_iff_imp.2 fun hp => decide_eq_true (top_le_of_spritePixel hp)]
  rfl

/-- A draw sets VF to 1 where its sprite has a 1 for a lit pixel, and otherwise to 0 (R136). -/
theorem reg_VF_of_exec_drw : (t.reg 0xF = 0 ∨ t.reg 0xF = 1) ∧ (t.reg 0xF = 1 ↔ ∃ cx cy, s.pixel cx cy = true ∧
    spritePixel s ((s.reg x).toNat % 64) ((s.reg y).toNat % 32) n.val cx cy = true) := by
  obtain ⟨hbit, hset⟩ := flagRegisterReceivesTheTabledValue (.drw x y n) s t h
  refine ⟨hbit, hset.trans (exists_congr fun cx => exists_congr fun cy => and_congr_right fun hlit => ?_)⟩
  simp [pixel_of_exec_drw h, hlit]

end

/-- Settles O51: when a draw completes, its pixels, VF and the frame of the dispatch; otherwise the one fault of Dxyn. -/
theorem drawFlipsTheSpriteAndReportsCollision : Obligations.DrawFlipsTheSpriteAndReportsCollision := by
  intro x y n s
  refine ⟨decodeWord_encode (i := .drw x y n) rfl, fun hin => ?_, fun hbad => ?_⟩
  · obtain ⟨t, ht⟩ := exists_exec_drw_eq_next_iff.2 hin
    obtain ⟨hbit, hset⟩ := reg_VF_of_exec_drw ht
    exact ⟨t, ht, pixel_of_exec_drw ht, hset.2, fun hno => hbit.resolve_right (mt hset.1 hno),
      (exec_changesOnly ht).mono fun _ hp => hp.symm⟩
  · exact exec_eq_fault_of_ne_next fun t ht => hbad (exists_exec_drw_eq_next_iff.1 ⟨t, ht⟩)

/-! ### Two draws -/

/-- Settles O52: a draw leaves I, memory and both coordinates alone, so the second draw flips the same pixels; on a clear display
these are the ones the first draw lit. -/
theorem drawingTwiceRestoresTheDisplay : Obligations.DrawingTwiceRestoresTheDisplay := by
  intro x y n s t u hx hy hst htu
  have hframe := exec_changesOnly hst
  have hregx : t.reg x = s.reg x := hframe (.reg x) (by simp [MayChange, hx])
  have hregy : t.reg y = s.reg y := hframe (.reg y) (by simp [MayChange, hy])
  have hsprite := spritePixel_congr (s := s) (t := t) (hframe .index (by simp [MayChange]))
    fun a => hframe (.byte a) (by simp [MayChange])
  have hrestored (cx : Fin 64) (cy : Fin 32) : u.pixel cx cy = s.pixel cx cy := by
    rw [pixel_of_exec_drw htu, pixel_of_exec_drw hst, hregx, hregy, hsprite, Bool.xor_assoc, Bool.xor_self,
      Bool.xor_false]
  refine ⟨hrestored, fun hclear ⟨cx, cy, hlit⟩ => ?_⟩
  obtain ⟨-, hset⟩ := flagRegisterReceivesTheTabledValue (.drw x y n) t u htu
  exact hset.2 ⟨cx, cy, hlit, (hrestored cx cy).trans (hclear cx cy)⟩

end Sys2Proof.Machine
end

section
/-! Key and timer instructions (45_keys_timers.md R145 to R150): their dispatches, and the runs of Steps that wait for a key
(R174, R196). -/

namespace Sys2Proof.Machine

/-! ### Moves of the timers -/

/-- Settles O55: each dispatch is one write, of its destination. -/
theorem timerMovesWriteTheirDestinationOnly : Obligations.TimerMovesWriteTheirDestinationOnly := fun x s =>
  ⟨⟨decodeWord_encode (i := .ldVxDt x) rfl, decodeWord_encode (i := .ldDtVx x) rfl, decodeWord_encode (i := .ldStVx x) rfl⟩,
    ⟨_, rfl, State.reg_setReg_same s x _, changesOnly_setReg s x _⟩, ⟨_, rfl, rfl, changesOnly_setDT s _⟩,
    ⟨_, rfl, rfl, changesOnly_setST s _⟩⟩

/-! ### The skips on keys -/

/-- Settles O53: with a key's number each skip writes PC alone; with none it does not complete, so it raises its one fault. -/
theorem keySkipsTestTheKeyNamedByTheRegister : Obligations.KeySkipsTestTheKeyNamedByTheRegister := by
  intro x s
  refine ⟨⟨decodeWord_encode (i := .skp x) rfl, decodeWord_encode (i := .sknp x) rfl⟩,
    fun k hk => ⟨⟨_, exec_skp_eq_next_iff.2 ⟨k, hk, rfl⟩, ?skp, changesOnly_skipIf _ s⟩,
      ⟨_, exec_sknp_eq_next_iff.2 ⟨k, hk, rfl⟩, ?sknp, changesOnly_skipIf _ s⟩⟩, fun hlarge => ?_⟩
  case skp | sknp => rw [skipIf_eq]; cases s.key k <;> rfl
  have hno (k : Fin 16) : (s.reg x).toNat ≠ k.val := by omega
  constructor <;> refine exec_eq_fault_of_ne_next fun t ht => ?_
  · obtain ⟨k, hk, -⟩ := exec_skp_eq_next_iff.1 ht
    exact hno k hk
  · obtain ⟨k, hk, -⟩ := exec_sknp_eq_next_iff.1 ht
    exact hno k hk

/-! ### The load of a key -/

theorem exec_ldVxKey_of_lowest (x : Reg) {s : State} {k : Fin 16} (hk : s.key k = true)
    (hlow : ∀ j, j < k → s.key j = false) : exec (.ldVxKey x) s = .next (s.setReg x (BitVec.ofNat 8 k.val)) := by
  have hkey : lowestKey s = some k.val := lowestKey_eq_some_iff.2 ⟨k.isLt, hk, hlow⟩
  show Host.Outcome.next (keyWait x s) = _
  rw [keyWait, hkey]

theorem exec_ldVxKey_of_no_key (x : Reg) {s : State} (hno : ∀ k, s.key k = false) :
    exec (.ldVxKey x) s = .next (s.setPC (s.PC - 2)) := by
  show Host.Outcome.next (keyWait x s) = _
  rw [keyWait, lowestKey_eq_none_iff.2 hno]

/-- Settles O54: with a key down the dispatch is one register write, of a number below 256; with none, one write of PC. -/
theorem keyLoadTakesTheLowestPressedKeyOrRepeats : Obligations.KeyLoadTakesTheLowestPressedKeyOrRepeats := by
  intro x s
  refine ⟨decodeWord_encode (i := .ldVxKey x) rfl, fun k hk hlow => ?_, fun hno => ?_⟩
  · refine ⟨_, exec_ldVxKey_of_lowest x hk hlow, ?_, changesOnly_setReg s x _⟩
    rw [State.reg_setReg_same, BitVec.toNat_ofNat, Nat.mod_eq_of_lt (by omega)]
  · exact ⟨_, exec_ldVxKey_of_no_key x hno, rfl, changesOnly_setPC s _⟩

/-! ### Runs of Steps -/

theorem runsTo_zero (s : State) : RunsTo 0 s s := rfl

/-- A run of `k + 1` Steps is a Step that completes and a run of `k` from there. -/
theorem runsTo_succ_iff {k : Nat} {s u : State} : RunsTo (k + 1) s u ↔ ∃ t, step s = .next t ∧ RunsTo k t u := by
  have hstep : core.step s = step s := rfl
  simp only [RunsTo, Host.Core.run, hstep]
  cases step s <;> simp

theorem not_mayChange_inputs (i : Instr) : ¬ MayChange i .inputs := by cases i <;> simp [MayChange]

/-- A Step that completes uses up one Step's inputs (R19 to R21). -/
theorem inputAt_of_step {s t : State} (h : step s = .next t) (j : Nat) : t.inputAt j = s.inputAt (j + 1) := by
  obtain ⟨-, w, i, u, -, -, hu, rfl⟩ := step_eq_next_iff.1 h
  obtain ⟨hpending, hdraw⟩ := exec_changesOnly hu .inputs (not_mayChange_inputs i)
  simp only [State.inputAt, State.endStep_pending, State.endStep_drawIndex, hpending, hdraw, State.beginStep_pending,
    State.beginStep_drawIndex, List.getElem?_tail, Nat.add_assoc, Nat.add_comm 1]

/-- What is dispatched depends on the status, PC and memory alone (R67, R70). -/
theorem Dispatches.of_changesOnly {named : Part → Prop} {s t : State} {i : Instr} (hd : Dispatches s i)
    (h : ChangesOnly named s t) (hstatus : ¬ named .status) (hpc : ¬ named .pc) (hbyte : ∀ a, ¬ named (.byte a)) :
    Dispatches t i := by
  obtain ⟨w, ⟨hrun, hf⟩, hw⟩ := hd
  have hPC : t.PC = s.PC := h .pc hpc
  have hread (a : Nat) : t.readByte a = s.readByte a := h (.byte a) (hbyte a)
  refine ⟨w, ⟨(h .status hstatus).trans hrun, ?_⟩, hw⟩
  rw [← hf, fetch, fetch, hPC, hread, hread]

/-! ### Waiting for a key -/

/-- The parts of the state that a Step may change which waits for a key. -/
def WaitChanges (p : Part) : Prop := p = .delayTimer ∨ p = .soundTimer ∨ p = .inputs ∨ p = .output

/-- With no key down a Step of Fx0A ticks the timers and takes PC back to where the advance found it (R69, R148). -/
theorem Dispatches.step_of_no_key {s : State} {x : Reg} (hd : Dispatches s (.ldVxKey x)) (hno : ∀ k, s.key k = false) :
    ∃ t, step s = .next t ∧ t.DT = s.beginStep.DT ∧ t.ST = s.beginStep.ST ∧ ChangesOnly WaitChanges s t := by
  have hexec := exec_ldVxKey_of_no_key x (s := s.beginStep) fun k => (s.beginStep_key k).trans (hno k)
  obtain ⟨w, hf, hw⟩ := hd
  refine ⟨s.endStep (s.beginStep.setPC (s.beginStep.PC - 2)), ?_, rfl, rfl, fun p hp => ?_⟩
  · rw [hf.step_eq hw, hexec, finishStep]
  · simp only [WaitChanges, not_or] at hp
    obtain ⟨hdt, hst, hin, hout⟩ := hp
    by_cases hpc : p = .pc
    · rw [hpc]
      exact s.beginStep_pcFetch
    · exact Part.same_trans (changesOnly_beginStep s p (by simp [hpc, hdt, hst, hout]))
        (Part.same_trans (changesOnly_setPC _ _ p hpc) (changesOnly_endStep s _ p (by simp [hin, hout])))

/-- Settles O56, by induction on the number of Steps: a Step that waits changes nothing on which the next dispatch depends. -/
theorem keyWaitRepeatsWhileTheTimersRunDown : Obligations.KeyWaitRepeatsWhileTheTimersRunDown := by
  intro x k
  induction k with
  | zero => exact fun s _ _ _ => ⟨s, runsTo_zero s, rfl, rfl, ChangesOnly.refl _ s⟩
  | succ k ih =>
    intro s hd hmode hno
    obtain ⟨t, hst, hDT, hST, hframe⟩ := hd.step_of_no_key fun key => by
      rw [State.key, s.input_eq_inputAt]
      exact hno 0 k.succ_pos key
    have hconfig : t.config = s.config := hframe .config (by simp [WaitChanges])
    have hdt : Dispatches t (.ldVxKey x) :=
      hd.of_changesOnly hframe (by simp [WaitChanges]) (by simp [WaitChanges]) (by simp [WaitChanges])
    obtain ⟨u, hu, huDT, huST, huframe⟩ := ih t hdt (hconfig ▸ hmode) fun j hj key => by
      rw [inputAt_of_step hst]
      exact hno (j + 1) (Nat.succ_lt_succ hj) key
    have htick : s.tickEn = true := by rw [State.tickEn, hmode]
    rw [State.beginStep_DT, if_pos htick] at hDT
    rw [State.beginStep_ST, if_pos htick] at hST
    refine ⟨u, runsTo_succ_iff.2 ⟨t, hst, hu⟩, ?_, ?_, hframe.trans huframe⟩
    · rw [huDT, hDT, tickTimer_toNat, Nat.sub_sub, Nat.add_comm]
    · rw [huST, hST, tickTimer_toNat, Nat.sub_sub, Nat.add_comm]

end Sys2Proof.Machine
end

section
/-! The faults (60_exceptions.md R160 to R170): where a dispatch completes, and the record of the fault a Step raises. -/

namespace Sys2Proof.Machine

/-! ### Where a dispatch completes -/

theorem exists_key_iff (v : Byte) : (∃ k : Fin 16, v.toNat = k.val) ↔ v.toNat ≤ 15 :=
  ⟨fun ⟨k, hk⟩ => by omega, fun hv => ⟨⟨v.toNat, Nat.lt_succ_of_le hv⟩, rfl⟩⟩

/-- Each instruction with a fault of its own completes under that instruction's condition, every other one in every state. -/
theorem exists_exec_eq_next_iff (i : Instr) (s : State) : (∃ t, exec i s = .next t) ↔ Completes i s := by
  cases i with
  | ret => simp [exec_ret_eq_next_iff, Completes, List.ne_nil_iff_exists_cons]
  | call nnn => simp [exec_call_eq_next_iff, Completes]
  | skp x => simp [exec_skp_eq_next_iff, Completes, exists_key_iff, exists_comm (α := State)]
  | sknp x => simp [exec_sknp_eq_next_iff, Completes, exists_key_iff, exists_comm (α := State)]
  | bcd x => simp [exec_bcd_eq_next_iff, Completes, block_le_memSize_iff s 2]
  | stm x => simp [exec_stm_eq_next_iff, Completes, block_le_memSize_iff]
  | ldm x => exact exists_exec_ldm_eq_next_iff
  | drw x y n => exact exists_exec_drw_eq_next_iff
  | _ => exact ⟨fun _ => trivial, fun _ => ⟨_, rfl⟩⟩

/-! ### The record of a dispatch's fault -/

theorem record_faultOf (i : Instr) (s : State) : (faultOf i s).record = recordOf i s := by
  cases i <;> rfl

/-- Settles O16: a dispatch that does not complete raises the one fault of its instruction. -/
theorem instructionsFaultExactlyAsListed : Obligations.InstructionsFaultExactlyAsListed := fun i s =>
  ⟨(exists_exec_eq_next_iff i s).2, fun hbad =>
    ⟨exec_eq_fault_of_ne_next fun t ht => hbad ((exists_exec_eq_next_iff i s).1 ⟨t, ht⟩), record_faultOf i s⟩⟩

theorem recordOf_pcFetch (i : Instr) (s : State) : (recordOf i s).pcFetch = s.PC - 2 := by cases i <;> rfl

theorem recordOf_instr (i : Instr) (s : State) : (recordOf i s).instr = some (encode i) := by cases i <;> rfl

/-- Codes 1 and 2 are of faults before the dispatch (R161). -/
theorem recordOf_code_bounds (i : Instr) (s : State) : 3 ≤ (recordOf i s).code ∧ (recordOf i s).code ≤ 6 := by
  cases i <;> simp [recordOf]

/-- The extra value recorded in the dispatch is R161's for the code, read from the state before the Step: the start of a Step
writes neither I nor a register, and the word's `x` names the register of a key skip. -/
theorem recordOf_beginStep_extra {i : Instr} {s : State} (hf : fetch s = some (encode i)) :
    (recordOf i s.beginStep).extra = extraOf (recordOf i s.beginStep).code s := by
  cases i with
  | skp x | sknp x => simp [recordOf, extraOf, hf, encode]
  | ret | call nnn => rfl
  | _ => simp [recordOf, extraOf]

/-! ### The record of a Step's fault -/

/-- Settles O17: the three phases of a Step that can fault, one by one; a fault of the dispatch is its instruction's, whose word
was fetched and is not illegal. -/
theorem faultRecordNamesWordAndFetchAddress : Obligations.FaultRecordNamesWordAndFetchAddress := by
  intro s f hrun h
  obtain ⟨r, hfaulted, -⟩ | ⟨-, hf, rfl⟩ | ⟨-, w, e, hf, hd, rfl⟩ | ⟨-, w, i, hf, hd, hexec⟩ := step_eq_fault_iff.1 h
  case inl => cases hrun.symm.trans hfaulted
  case inr.inl => simp [Fault.record, extraOf, hf]
  case inr.inr.inl =>
    have hillegal : IllegalWord w := illegalWord_of_decodeWord_error hd
    simp [Fault.record, extraOf, hf, hillegal]
  case inr.inr.inr =>
    obtain ⟨rfl, -⟩ := decodeWord_eq_ok_iff.1 hd
    have hlegal : ¬ IllegalWord (encode i) := fun hw => by
      obtain ⟨e, he⟩ := illegalWord_iff_decodeWord_error.1 hw
      cases hd.symm.trans he
    have hrecord : f.record = recordOf i s.beginStep := by rw [eq_faultOf_of_exec hexec, record_faultOf]
    obtain ⟨hlow, hhigh⟩ := recordOf_code_bounds i s.beginStep
    rw [hrecord]
    refine ⟨?pcFetch, (recordOf_instr i _).trans hf.symm, by omega, hhigh, ?noWord, ?illegal, recordOf_beginStep_extra hf⟩
    case pcFetch => exact (recordOf_pcFetch i _).trans s.beginStep_pcFetch
    case noWord => simp only [hf, reduceCtorEq, iff_false]; omega
    case illegal => simp only [hf, Option.some.injEq, exists_eq_left', hlegal, iff_false]; omega

end Sys2Proof.Machine
end

section
/-! The delay timer over several Steps in `PerCycle` mode (60_exceptions.md R174, R195). -/

namespace Sys2Proof.Machine

/-- In `PerCycle` mode a Step's dispatch starts from DT one less, or 0 (R21, R69). -/
theorem beginStep_DT_toNat_of_perCycle {s : State} (hmode : s.config.tickMode = .perCycle) :
    s.beginStep.DT.toNat = s.DT.toNat - 1 := by
  have htick : s.tickEn = true := (tickEnableFollowsTheMode s).1 hmode
  rw [State.beginStep_DT, if_pos htick, tickTimer_toNat]

theorem config_of_step {s t : State} (h : step s = .next t) : t.config = s.config := by
  obtain ⟨i, hd⟩ := exists_dispatches_of_step h
  exact (eachComponentChangesOnlyByItsInstructions s t i hd h).1

/-- A Step that does not dispatch Fx15 takes DT down by one, or leaves it 0 (R16, R69). -/
theorem DT_toNat_of_step {s t : State} (hmode : s.config.tickMode = .perCycle) (h : step s = .next t)
    (hno : ∀ x, ¬ Dispatches s (.ldDtVx x)) : t.DT.toNat = s.DT.toNat - 1 := by
  obtain ⟨i, hd⟩ := exists_dispatches_of_step h
  obtain ⟨u, hu, rfl⟩ := hd.exec_of_step h
  have hkept : u.DT = s.beginStep.DT := exec_DT hu fun x hi => hno x (hi ▸ hd)
  rw [State.endStep_DT, hkept, beginStep_DT_toNat_of_perCycle hmode]

/-- By induction on the number of Steps: DT counts them while none dispatches Fx15, and the mode stays. -/
theorem DT_toNat_of_runsTo {k : Nat} : ∀ {t u : State}, t.config.tickMode = .perCycle → RunsTo k t u →
    (∀ j, j < k → ∀ w x, RunsTo j t w → ¬ Dispatches w (.ldDtVx x)) →
    u.DT.toNat = t.DT.toNat - k ∧ u.config.tickMode = .perCycle := by
  induction k with
  | zero =>
    intro t u hmode hrun _
    cases hrun
    exact ⟨rfl, hmode⟩
  | succ k ih =>
    intro t u hmode hrun hno
    obtain ⟨t', hstep, hrest⟩ := runsTo_succ_iff.1 hrun
    have hDT := DT_toNat_of_step hmode hstep fun x => hno 0 k.succ_pos t x (runsTo_zero t)
    have hmode' : t'.config.tickMode = .perCycle := config_of_step hstep ▸ hmode
    obtain ⟨hcount, hu⟩ := ih hmode' hrest fun j hj w x hw =>
      hno (j + 1) (Nat.succ_lt_succ hj) w x (runsTo_succ_iff.2 ⟨t', hstep, hw⟩)
    exact ⟨by omega, hu⟩

/-- Settles O57: Fx15 leaves `v` in DT, the Steps between count it down by `k`, and the Step of Fx07 ticks before it reads. -/
theorem delayTimerCountsTheStepsSinceItWasSet : Obligations.DelayTimerCountsTheStepsSinceItWasSet := by
  intro k s t u v x y hmode hset hst hrun hno hread huv
  have hwritten : t.DT = s.reg x := by
    obtain ⟨-, -, -, hwrites, -⟩ := timersTickBeforeTheDispatch s t _ hset hst
    exact hwrites x rfl
  obtain ⟨hcount, hmode'⟩ := DT_toNat_of_runsTo (config_of_step hst ▸ hmode) hrun hno
  have hloaded : v.reg y = u.beginStep.DT := by
    obtain ⟨-, -, hreads, -⟩ := timersTickBeforeTheDispatch u v _ hread huv
    exact (hreads y rfl).trans u.beginStep_DT_eq_ite.symm
  calc (v.reg y).toNat = u.DT.toNat - 1 := by rw [hloaded, beginStep_DT_toNat_of_perCycle hmode']
    _ = (s.reg x).toNat - (k + 1) := by rw [hcount, hwritten, Nat.sub_sub]

end Sys2Proof.Machine
end

section
/-! Load (R191): the program's bytes stand where they were written, or the program is rejected whole (D19). -/

namespace Sys2Proof.Machine

/-- Each byte of a write is read back at its address. -/
theorem some_readByte_writeBytes_add (s : State) (a : Nat) {xs : List Byte} {k : Nat} (hk : k < xs.length) :
    some ((s.writeBytes a xs).readByte (a + k)) = xs[k]? := by
  rw [State.readByte_writeBytes, if_pos (Nat.le_add_right a k), Nat.add_sub_cancel_left, List.getElem?_eq_getElem hk,
    Option.getD_some]

/-- A program that fits answers the write of its bytes over the reset state (R191). -/
theorem boot_of_length_le (c : Config) {program : List Byte} (h : program.length ≤ maxProg) :
    boot c program = .next ((State.resetWith c).writeBytes progBase program) := if_pos h

/-- A program that does not fit is rejected (D19). -/
theorem boot_of_lt_length (c : Config) {program : List Byte} (h : maxProg < program.length) :
    boot c program = .refused (.loadTooLong program.length) := if_neg (Nat.not_le.2 h)

/-- A program that fits ends within memory (R5). -/
theorem progBase_add_length_le {program : List Byte} (h : program.length ≤ maxProg) :
    progBase + program.length ≤ memSize := Nat.add_le_add_left h progBase

/-- Settles O26: Load is a write of bytes over the reset state, which is canonical by the invariant that reset meets. -/
theorem loadPlacesTheProgramOrIsRejected : Obligations.LoadPlacesTheProgramOrIsRejected := by
  intro c program
  refine ⟨fun hfits => ⟨_, boot_of_length_le c hfits, fun k hk => ?_, ?_, ?_⟩, boot_of_lt_length c⟩
  · exact some_readByte_writeBytes_add _ progBase hk
  · exact changesOnly_writeBytes _ progBase program
  · exact State.writeBytes_wf program _ progBase (progBase_add_length_le hfits) (resetMeetsTheInvariant c).memory

end Sys2Proof.Machine
end
